-- ==== Sys2Proof/Word.lean ====
section
/-! DEFINITION. The machine's words: every datum is one byte, and the program counter has 9 bits. -/

namespace Sys2Proof

/-- A byte: 8 bits, an unsigned value 0 to 255 (00_scope.md R8). -/
abbrev Byte := BitVec 8

/-- The 9-bit program counter, which must be able to hold 256 (10_state.md R23). -/
abbrev PcWord := BitVec 9

end Sys2Proof
end

