-- ==== Sys2Proof/Machine/Flags.lean ====
section
/-! DEFINITION. There are no status flags, condition codes or predicates (10_state.md R29), so there is no flag
computation. What the conditional instructions test in their place is a data byte. -/

namespace Sys2Proof.Machine

/-- The test `v > 0` of a byte, unsigned, so that it means `v ≠ 0` (41_control.md R144, R145; 42_display.md R153). -/
def isPositive (v : Byte) : Bool :=
  decide (0 < v.toNat)

end Sys2Proof.Machine
end

