-- ==== Sys2Proof/Config.lean ====
section
/-! DEFINITION. What a construction of the machine fixes (the sizes of 00_scope.md R7, kept in one place as
93_implementation_defined.md U9 asks; the opcode values stand in the one table of Decode.lean) and the one value
the spec leaves free. -/

namespace Sys2Proof

/-- The legal values of `MEM_SIZE`: 32, 64, 128 and 256 bytes (00_scope.md R7, 10_state.md R21).
A machine keeps its size for life, so the size is a field of State and every statement covers all four (log 1). -/
inductive MemSize where
  | b32
  | b64
  | b128
  | b256
deriving DecidableEq, Repr

namespace Config

/-- `MEM_SIZE`, in bytes (R7). -/
def memBytes : MemSize → Nat
  | .b32 => 32
  | .b64 => 64
  | .b128 => 128
  | .b256 => 256

/-- The size a construction was asked for; any other number is refused (50_interfaces.md R201). -/
def memSizeOf (n : Nat) : Option MemSize :=
  if n = 32 then some .b32
  else if n = 64 then some .b64
  else if n = 128 then some .b128
  else if n = 256 then some .b256
  else none

/-- The size when the host names none: "default 64" (R7, R201). -/
def defaultMemSize : MemSize := .b64

/-- `SCRATCH_SIZE`: 8, fixed (R7). -/
abbrev scratchSize : Nat := 8

/-- `DISP_W` and `DISP_H`: 4 and 4, fixed (R7). -/
abbrev displaySize : Nat := 4

/-- FREE VALUE, DESIGN CHOICE in its form (log 6): whether the n-th save through the persistence port succeeds.
93_implementation_defined.md U8: "success or failure is a free input that no state depends on". -/
opaque saveSucceeds : Nat → Bool

end Config

end Sys2Proof
end

