-- ==== Sys2Proof/Machine/State.lean ====
section
/-! DEFINITION. The state of one Machine as plain data (10_state.md R20), the events it sends to its two ports, what
lies at the far side of those ports (50_interfaces.md R211 to R214), and the machine after construction. -/

namespace Sys2Proof.Machine

/-- The 3-bit error code register's values, in the order of their numbers 0 to 7 (60_exceptions.md R231). -/
inductive ErrorCode where
  /-- 0: no error. -/
  | none
  /-- 1: the assembler rejected a line (50_interfaces.md R204). -/
  | asmError
  /-- 2: `pc >= MEM_SIZE` at dispatch (40_step_cycle.md R123). -/
  | pcOutOfRange
  /-- 3: an operand byte would lie at or beyond `MEM_SIZE` (R126). -/
  | argsOutOfRange
  /-- 4: an operand of kind M is `>= MEM_SIZE` (R127). -/
  | badMemAddr
  /-- 5: an operand of kind S is `>= 8` (R128). -/
  | badScratchAddr
  /-- 6: an operand of kind C is `>= 4` (R129). -/
  | badCoord
  /-- 7: the byte at `pc` is none of the 24 opcodes (R125). -/
  | unknownOpcode
deriving DecidableEq, Repr

/-- The scratchpad register file, `x[0]` to `x[7]` (10_state.md R22). -/
abbrev Scratch := Vector Byte Config.scratchSize

/-- The reference display: row y holds the pixels of `disp[y][0]` to `disp[y][3]` (50_interfaces.md R211). -/
abbrev Display := Vector (Vector Bool Config.displaySize) Config.displaySize

/-- What the core sends to the outside. A coordinate is a `Fin 4`: "Coordinates outside 0..3 must never be sent"
(50_interfaces.md R209). -/
inductive Event where
  /-- `setPixel(x, y, on)` of the display port (R209). -/
  | setPixel (x y : Fin Config.displaySize) (on : Bool)
  /-- `clearAll()` of the display port (R210). -/
  | clearAll
  /-- `save(img)` of the persistence port, with the 8 scratch bytes (R213). -/
  | save (img : Scratch)
deriving DecidableEq, Repr

/-- What is reported to the log sink, never to the machine (60_exceptions.md R240). -/
inductive PersistenceFailure where
  /-- The image could not be read at construction (50_interfaces.md R214). -/
  | loadFailed
  /-- A save failed (44_scratch.md R184). -/
  | saveFailed
deriving DecidableEq, Repr

/-- The far side of the persistence port (50_interfaces.md R212 to R214). -/
structure DurableStore where
  /-- The durable image, none when it cannot be read: missing or corrupt (R214). -/
  image : Option Scratch
  /-- What was reported to the log sink, oldest first (44_scratch.md R184). -/
  log : List PersistenceFailure
  /-- The MODEL's counter of the saves made so far; it indexes the free outcome of the next one (log 6). -/
  saves : Nat
deriving DecidableEq, Repr

/-- `memory` as the list of its cells that do not hold 0, addresses strictly rising (10_state.md R21; log 10). -/
structure Memory where
  cells : List Host.Cell
deriving DecidableEq, Repr

/-- One Machine: the eight variables of 10_state.md R20 with its size, and the far side of its two ports. -/
structure State where
  /-- `MEM_SIZE`, "fixed for the life of a Machine" (00_scope.md R7; log 1). -/
  memSize : MemSize
  /-- The shared code and data bytes (10_state.md R21). -/
  memory : Memory
  /-- The scratchpad (R22). -/
  scratch : Scratch
  /-- The program counter, 9 bits (R23). -/
  pc : PcWord
  /-- Where execution starts and `LOOP` returns (R24). -/
  entryPoint : Byte
  /-- Wait ticks still to consume (R25). -/
  delayRemaining : Byte
  /-- The length of the wait in progress (R26). -/
  delayTotal : Byte
  /-- May the machine dispatch (R27). -/
  running : Bool
  /-- The cause of an error halt (R28). -/
  error : ErrorCode
  /-- The events sent so far, oldest first (42_display.md R156, 50_interfaces.md R208; log 5). -/
  trace : List Event
  /-- The reference display (50_interfaces.md R211; log 5). -/
  display : Display
  /-- The durable store (50_interfaces.md R212; log 5). -/
  store : DurableStore
deriving DecidableEq, Repr

/-- Faults of the machine: there are none. Every error the spec describes is the error halt of 60_exceptions.md R234,
which is a next state (log 8), so nothing raises a fault and the type is empty (safe). -/
inductive Fault where
deriving DecidableEq, Repr

/-- Refusals of the machine. -/
inductive Refusal where
  /-- The instruction has no meaning yet. Raised by an arm of exec only; no arm raises it now (safe). -/
  | notModelled (mnemonic : String)
deriving DecidableEq, Repr

/-- Scratch with all 8 bytes zero, "all-zero when no persisted image exists" (00_scope.md R7). -/
def Scratch.zero : Scratch := Vector.replicate Config.scratchSize 0

/-- The display with all 16 pixels off. -/
def Display.allOff : Display := Vector.replicate Config.displaySize (Vector.replicate Config.displaySize false)

/-- The machine right after construction (50_interfaces.md R201): the default size, no durable image to load, and a
display that was off. The size, the image and the display are open in the spec (logs 1, 2 and 3). -/
def State.reset : State where
  memSize := Config.defaultMemSize
  memory := ⟨[]⟩
  scratch := Scratch.zero
  pc := 0
  entryPoint := 0
  delayRemaining := 0
  delayTotal := 0
  running := false
  error := .none
  trace := []
  display := Display.allOff
  store := ⟨none, [.loadFailed], 0⟩

end Sys2Proof.Machine
end

