-- ==== Sys2Proof/Machine/Ops.lean ====
section
/-! DEFINITION. The named operations over memory, scratch, the ports and the control registers, which every meaning
goes through; the error halt, which is the one way an exception is taken (60_exceptions.md R234). There is no return
from it (R236): recovery is the host's Reset or Load (HostOps.lean). -/

namespace Sys2Proof.Machine

/-! ## Memory (10_state.md R21, 20_memory.md R50 to R57) -/

/-- What a cell that is not listed holds: 0, since every initialising event zeroes memory (20_memory.md R57). -/
def Memory.unlisted : Byte := 0

/-- The byte listed for address `a`. -/
def lookupCell : List Host.Cell → Nat → Byte
  | [], _ => Memory.unlisted
  | (k, v) :: rest, a => if k = a then v else lookupCell rest a

/-- The cells without any for address `a`. -/
def eraseCell : List Host.Cell → Nat → List Host.Cell
  | [], _ => []
  | (k, v) :: rest, a => if k = a then eraseCell rest a else (k, v) :: eraseCell rest a

/-- The cells with one more, before the first of a higher address. -/
def insertCell : List Host.Cell → Nat → Byte → List Host.Cell
  | [], a, v => [(a, v)]
  | (k, w) :: rest, a, v => if a < k then (a, v) :: (k, w) :: rest else (k, w) :: insertCell rest a v

/-- `mem[a]` (00_scope.md R10). -/
def Memory.read (m : Memory) (a : Nat) : Byte :=
  lookupCell m.cells a

/-- `mem[a] <- v` (R10), keeping the canonical form: the value of an unlisted cell is not listed. -/
def Memory.write (m : Memory) (a : Nat) (v : Byte) : Memory :=
  if v = Memory.unlisted then ⟨eraseCell m.cells a⟩ else ⟨insertCell (eraseCell m.cells a) a v⟩

/-- The `n` bytes from address `a` on, at ascending addresses (20_memory.md R54). -/
def Memory.bytes (m : Memory) (a : Nat) : Nat → List Byte
  | 0 => []
  | n + 1 => m.read a :: m.bytes (a + 1) n

/-- The bytes stored from address `a` on. -/
def Memory.writeBytes (m : Memory) (a : Nat) : List Byte → Memory
  | [] => m
  | v :: rest => (m.write a v).writeBytes (a + 1) rest

/-- Memory with every cell 0. -/
def Memory.zero : Memory := ⟨[]⟩

/-- Memory that holds an image from address 0 on and 0 elsewhere (50_interfaces.md R203). -/
def Memory.ofImage (image : List Byte) : Memory :=
  Memory.zero.writeBytes 0 image

/-- Every listed address lies at or above `low`, they rise strictly, and no listed byte is what an unlisted one is. -/
def canonicalFrom (low : Nat) : List Host.Cell → Bool
  | [] => true
  | (k, v) :: rest => decide (low ≤ k) && decide (v ≠ Memory.unlisted) && canonicalFrom (k + 1) rest

/-- The canonical form of a memory. -/
def Memory.wf (m : Memory) : Bool :=
  canonicalFrom 0 m.cells

/-- Every listed address exists: it is below `size` (20_memory.md R51). -/
def Memory.within (m : Memory) (size : Nat) : Bool :=
  m.cells.all fun c => decide (c.1 < size)

namespace State

/-- `MEM_SIZE` of this machine. -/
def memBytes (s : State) : Nat :=
  Config.memBytes s.memSize

/-- `MemRead(a, 1)` for an operand byte (00_scope.md R10). -/
def readMem (s : State) (a : Byte) : Byte :=
  s.memory.read a.toNat

/-- `MemWrite(a, 1, v)` for an operand byte (R10). -/
def writeMem (s : State) (a v : Byte) : State :=
  { s with memory := s.memory.write a.toNat v }

/-! ## Scratch (10_state.md R22) -/

/-- `x[i]` (R10). The caller has checked the index; one beyond 7 names no register and reads as 0. -/
def readScratch (s : State) (i : Byte) : Byte :=
  s.scratch[i.toNat]?.getD 0

/-- `x[i] <- v` (R10). The caller has checked the index; one beyond 7 names no register and nothing is written. -/
def writeScratch (s : State) (i v : Byte) : State :=
  { s with scratch := s.scratch.setIfInBounds i.toNat v }

end State

/-! ## The two ports (50_interfaces.md R208 to R214) -/

/-- `disp[y][x]` (R211). -/
def Display.pixel (d : Display) (x y : Fin Config.displaySize) : Bool :=
  (d.get y).get x

/-- `disp[y][x] <- on` (R211). -/
def Display.setPixel (d : Display) (x y : Fin Config.displaySize) (on : Bool) : Display :=
  d.set y.val ((d.get y).set x.val on)

/-- What an event does to the reference display (R211). -/
def Display.after (d : Display) : Event → Display
  | .setPixel x y on => d.setPixel x y on
  | .clearAll => Display.allOff
  | .save _ => d

/-- What an event does to the durable store (R213): a save that succeeds makes the durable image equal to scratch; one
that fails leaves it stale and is reported to the log sink (44_scratch.md R184, 60_exceptions.md R240). Which of the two
happens is free (log 6). -/
def DurableStore.after (d : DurableStore) : Event → DurableStore
  | .save img =>
    { image := if Config.saveSucceeds d.saves then some img else d.image
      log := if Config.saveSucceeds d.saves then d.log else d.log ++ [.saveFailed]
      saves := d.saves + 1 }
  | .setPixel _ _ _ => d
  | .clearAll => d

namespace State

/-- `emit e` (00_scope.md R10): one call of a port operation. Nothing comes back to the machine. -/
def emit (s : State) (e : Event) : State :=
  { s with trace := s.trace ++ [e], display := s.display.after e, store := s.store.after e }

/-- Several events, in their order (50_interfaces.md R208). -/
def emitAll (s : State) : List Event → State
  | [] => s
  | e :: rest => (s.emit e).emitAll rest

/-- `emit Save(scratch)`: the 8 bytes as they are now (44_scratch.md R184). -/
def emitSave (s : State) : State :=
  s.emit (.save s.scratch)

/-! ## Control registers -/

/-- `pc <- t` for a branch target byte (41_control.md R146): it is not compared with `MEM_SIZE`. -/
def jumpTo (s : State) (target : Byte) : State :=
  { s with pc := target.setWidth 9 }

/-- `pc <- pc + n`, the advance by the instruction's length (40_step_cycle.md R131). -/
def advance (s : State) (n : Nat) : State :=
  { s with pc := BitVec.ofNat 9 (s.pc.toNat + n) }

/-- `raise E`: the error halt (00_scope.md R10, 60_exceptions.md R234). It writes `running` and `error` and keeps
everything else, `pc` included: there is no vector, no saved copy, no mode change. -/
def raise (s : State) (e : ErrorCode) : State :=
  { s with running := false, error := e }

/-- The clean halt (41_control.md R140): `running` is cleared, `error` and `pc` are kept. -/
def haltClean (s : State) : State :=
  { s with running := false }

/-- Both delay counters loaded with `n` (41_control.md R141). -/
def startWait (s : State) (n : Byte) : State :=
  { s with delayRemaining := n, delayTotal := n }

/-- One wait tick (40_step_cycle.md R122): the count goes down by 1, and when it reaches 0 `delayTotal` is cleared. -/
def waitTick (s : State) : State :=
  { s with
    delayRemaining := s.delayRemaining - 1
    delayTotal := if s.delayRemaining - 1 = 0 then 0 else s.delayTotal }

/-- What ends a step before the fetch, in the order of 40_step_cycle.md R120: the halted gate (R121), a wait tick
(R122), a program counter out of range (R123). None: the step dispatches. -/
def beforeDispatch (s : State) : Option State :=
  if s.running = false then some s
  else if s.delayRemaining ≠ 0 then some s.waitTick
  else if s.memBytes ≤ s.pc.toNat then some (s.raise .pcOutOfRange)
  else none

end State

/-- The number of an error code in the 3-bit register (60_exceptions.md R231). -/
def ErrorCode.code : ErrorCode → BitVec 3
  | .none => 0
  | .asmError => 1
  | .pcOutOfRange => 2
  | .argsOutOfRange => 3
  | .badMemAddr => 4
  | .badScratchAddr => 5
  | .badCoord => 6
  | .unknownOpcode => 7

end Sys2Proof.Machine
end

