-- ==== Sys2Proof/Machine/Operands.lean ====
section
/-! DEFINITION. The operand kinds and the checks a handler makes before its effect (30_encoding.md R82,
40_step_cycle.md R126 to R130). -/

namespace Sys2Proof.Machine

/-- An operand byte with its kind (30_encoding.md R82). -/
inductive Operand where
  /-- Kind M: an address in memory that is read or written. -/
  | mem (a : Byte)
  /-- Kind T: a branch target, not checked by the branch (41_control.md R146). -/
  | target (a : Byte)
  /-- Kind S: an index into scratch. -/
  | scr (i : Byte)
  /-- Kind V: a byte stored as data. -/
  | value (v : Byte)
  /-- Kind N: a count. -/
  | count (n : Byte)
  /-- Kind C: a pixel coordinate. -/
  | coord (c : Byte)
deriving DecidableEq, Repr

/-- `CheckMem`, `CheckScr` and `CheckCoord` (40_step_cycle.md R127, R128, R129): the error of an operand out of the
range of its kind. Kinds T, V and N have no check. -/
def Operand.error (size : Nat) : Operand → Option ErrorCode
  | .mem a => if size ≤ a.toNat then some .badMemAddr else none
  | .scr i => if Config.scratchSize ≤ i.toNat then some .badScratchAddr else none
  | .coord c => if Config.displaySize ≤ c.toNat then some .badCoord else none
  | .target _ => none
  | .value _ => none
  | .count _ => none

/-- The first failing check, in operand order (R130). -/
def firstError (size : Nat) : List Operand → Option ErrorCode
  | [] => none
  | op :: rest =>
    match op.error size with
    | some e => some e
    | none => firstError size rest

/-- The coordinate a checked operand of kind C names. -/
def coordOf (c : Byte) : Fin Config.displaySize :=
  Fin.ofNat Config.displaySize c.toNat

namespace State

/-- `NeedOperands(k)` fails: operand byte k would lie at or beyond `MEM_SIZE`; the sum is exact (R126, 00_scope.md R9). -/
def lacksOperands (s : State) (k : Nat) : Bool :=
  decide (s.memBytes ≤ s.pc.toNat + k)

/-- The error a handler with these operand bytes raises before its effect: first `NeedOperands`, then one check per
operand in operand order (R130). -/
def operandError (s : State) (ops : List Operand) : Option ErrorCode :=
  if s.lacksOperands ops.length then some .argsOutOfRange else firstError s.memBytes ops

/-- A handler: its checks, and its effect only if every check passed (R130). -/
def checked (s : State) (ops : List Operand) (effect : State) : Host.Outcome State Fault Refusal :=
  match s.operandError ops with
  | some e => .next (s.raise e)
  | none => .next effect

end State

end Sys2Proof.Machine
end

