-- ==== Sys2Proof/Machine/Control.lean ====
section
/-! DEFINITION. The control instructions: HALT, WAIT, LOOP, JUMP, JUMPIF, SCRATCH_JUMPIF (41_control.md). -/

namespace Sys2Proof.Machine

/-- `HALT` (R140): stop cleanly; `pc` stays at the instruction and `error` stays as it is. -/
def execHalt (s : State) : Host.Outcome State Fault Refusal :=
  .next s.haltClean

/-- `WAIT n` (R141): both delay counters become n and `pc` moves past the instruction. -/
def execWait (n : Byte) (s : State) : Host.Outcome State Fault Refusal :=
  s.checked [.count n] ((s.startWait n).advance 2)

/-- `LOOP` (R142): `pc <- entryPoint`. -/
def execLoop (s : State) : Host.Outcome State Fault Refusal :=
  .next (s.jumpTo s.entryPoint)

/-- `JUMP addr` (R143): `pc <- addr`; the target is not checked (R146). -/
def execJump (addr : Byte) (s : State) : Host.Outcome State Fault Refusal :=
  s.checked [.target addr] (s.jumpTo addr)

/-- A conditional branch (R144, R145): to the target when the tested byte is not 0, else past its 3 bytes. -/
def State.branchIf (s : State) (tested target : Byte) : State :=
  if isPositive tested then s.jumpTo target else s.advance 3

/-- `JUMPIF addr testAddr` (R144): branch if a memory byte is not zero. -/
def execJumpif (addr testAddr : Byte) (s : State) : Host.Outcome State Fault Refusal :=
  s.checked [.target addr, .mem testAddr] (s.branchIf (s.readMem testAddr) addr)

/-- `SCRATCH_JUMPIF addr s` (R145): branch if a scratch register is not zero. -/
def execScratchJumpif (addr i : Byte) (s : State) : Host.Outcome State Fault Refusal :=
  s.checked [.target addr, .scr i] (s.branchIf (s.readScratch i) addr)

end Sys2Proof.Machine
end

