-- ==== Sys2Proof/Machine/Alu.lean ====
section
/-! DEFINITION. The operations on bytes. Every result is reduced modulo 256 and carry, borrow and the bit shifted out
are lost (43_memory_alu.md R170). -/

namespace Sys2Proof.Machine.Alu

/-- `(va + vb) mod 256` (R161, R182). -/
def add (va vb : Byte) : Byte := BitVec.ofNat 8 (va.toNat + vb.toNat)

/-- `(va + 256 - vb) mod 256` (R162). -/
def sub (va vb : Byte) : Byte := BitVec.ofNat 8 (va.toNat + 256 - vb.toNat)

/-- Bit by bit, 1 only when both are 1 (R163). -/
def and (va vb : Byte) : Byte := va &&& vb

/-- Bit by bit, 1 when at least one is 1 (R164). -/
def or (va vb : Byte) : Byte := va ||| vb

/-- Bit by bit, 1 when the two differ (R165). -/
def xor (va vb : Byte) : Byte := va ^^^ vb

/-- `255 - va`: every bit inverted (R166). -/
def not (va : Byte) : Byte := BitVec.ofNat 8 (255 - va.toNat)

/-- `(va * 2) mod 256` (R167). -/
def shl (va : Byte) : Byte := BitVec.ofNat 8 (va.toNat * 2)

/-- `floor(va / 2)` (R168). -/
def shr (va : Byte) : Byte := BitVec.ofNat 8 (va.toNat / 2)

end Sys2Proof.Machine.Alu
end

