-- ==== Sys2Proof/Machine/MemoryAlu.lean ====
section
/-! DEFINITION. The memory and arithmetic instructions: STORE, ADD, SUB, AND, OR, XOR, NOT, SHL, SHR
(43_memory_alu.md). Absolute addressing is the only mode, and every source is read before the write (R169). -/

namespace Sys2Proof.Machine

/-- The three-address form with operation `f` (R169). -/
def State.binary (s : State) (f : Byte → Byte → Byte) (a b dst : Byte) : Host.Outcome State Fault Refusal :=
  s.checked [.mem a, .mem b, .mem dst] ((s.writeMem dst (f (s.readMem a) (s.readMem b))).advance 4)

/-- The two-address form with operation `g` (R169). -/
def State.unary (s : State) (g : Byte → Byte) (a dst : Byte) : Host.Outcome State Fault Refusal :=
  s.checked [.mem a, .mem dst] ((s.writeMem dst (g (s.readMem a))).advance 3)

/-- `STORE addr value` (R160): `memory[addr] <- value`. -/
def execStore (addr value : Byte) (s : State) : Host.Outcome State Fault Refusal :=
  s.checked [.mem addr, .value value] ((s.writeMem addr value).advance 3)

/-- `ADD a b dst` (R161). -/
def execAdd (a b dst : Byte) (s : State) : Host.Outcome State Fault Refusal :=
  s.binary Alu.add a b dst

/-- `SUB a b dst` (R162): the first operand's cell less the second's. -/
def execSub (a b dst : Byte) (s : State) : Host.Outcome State Fault Refusal :=
  s.binary Alu.sub a b dst

/-- `AND a b dst` (R163). -/
def execAnd (a b dst : Byte) (s : State) : Host.Outcome State Fault Refusal :=
  s.binary Alu.and a b dst

/-- `OR a b dst` (R164). -/
def execOr (a b dst : Byte) (s : State) : Host.Outcome State Fault Refusal :=
  s.binary Alu.or a b dst

/-- `XOR a b dst` (R165). -/
def execXor (a b dst : Byte) (s : State) : Host.Outcome State Fault Refusal :=
  s.binary Alu.xor a b dst

/-- `NOT a dst` (R166). -/
def execNot (a dst : Byte) (s : State) : Host.Outcome State Fault Refusal :=
  s.unary Alu.not a dst

/-- `SHL a dst` (R167): left by one bit, 0 enters at bit 0. -/
def execShl (a dst : Byte) (s : State) : Host.Outcome State Fault Refusal :=
  s.unary Alu.shl a dst

/-- `SHR a dst` (R168): right by one bit, 0 enters at bit 7. -/
def execShr (a dst : Byte) (s : State) : Host.Outcome State Fault Refusal :=
  s.unary Alu.shr a dst

end Sys2Proof.Machine
end

