-- ==== Sys2Proof/Machine/Pixels.lean ====
section
/-! DEFINITION. The display instructions: SET, CLEAR, LOAD, SETALL, SETNONE (42_display.md). They change no machine
state but `pc`; their effect is the events they send to the display port. -/

namespace Sys2Proof.Machine

/-- The pairs of `SET` and `CLEAR`, one after another: both coordinates of a pair are checked, then its event is sent.
The first bad pair raises `BadCoord`; the events of the pairs before it stand (R150, R152). At the end `pc` moves past
the instruction's `len` bytes. -/
def State.drawPairs (on : Bool) (len : Nat) : List (Byte × Byte) → State → State
  | [], s => s.advance len
  | (x, y) :: rest, s =>
    match firstError s.memBytes [.coord x, .coord y] with
    | some e => s.raise e
    | none => State.drawPairs on len rest (s.emit (.setPixel (coordOf x) (coordOf y) on))

/-- The handler `SET` and `CLEAR` share (R150, R151): `NeedOperands` for the count byte, then for all the pair bytes,
both before any event, then the pairs. -/
def State.draw (s : State) (on : Bool) (pairs : List (Byte × Byte)) : Host.Outcome State Fault Refusal :=
  if s.lacksOperands 1 then .next (s.raise .argsOutOfRange)
  else if s.lacksOperands (1 + 2 * pairs.length) then .next (s.raise .argsOutOfRange)
  else .next (State.drawPairs on (2 + 2 * pairs.length) pairs s)

/-- `SET x0 y0, x1 y1, ...` (R150): turn on each listed pixel. -/
def execSet (pairs : List (Byte × Byte)) (s : State) : Host.Outcome State Fault Refusal :=
  s.draw true pairs

/-- `CLEAR x0 y0, x1 y1, ...` (R151): turn off each listed pixel, pixel by pixel. -/
def execClear (pairs : List (Byte × Byte)) (s : State) : Host.Outcome State Fault Refusal :=
  s.draw false pairs

/-- `LOAD addr` (R153): pixel (0,0) shows whether a memory byte is not zero. -/
def execLoad (addr : Byte) (s : State) : Host.Outcome State Fault Refusal :=
  s.checked [.mem addr] ((s.emit (.setPixel 0 0 (isPositive (s.readMem addr)))).advance 2)

/-- The 16 events of `SETALL`, y outer and x inner, both ascending (R154; the order is the spec's choice D15, log 18). -/
def allOnEvents : List Event :=
  [0, 1, 2, 3].flatMap fun y => [0, 1, 2, 3].map fun x => Event.setPixel x y true

/-- `SETALL` (R154): all 16 pixels on. -/
def execSetall (s : State) : Host.Outcome State Fault Refusal :=
  .next ((s.emitAll allOnEvents).advance 1)

/-- `SETNONE` (R155): all 16 pixels off, by one `clearAll`. -/
def execSetnone (s : State) : Host.Outcome State Fault Refusal :=
  .next ((s.emit .clearAll).advance 1)

end Sys2Proof.Machine
end

