-- ==== Sys2Proof/Machine/Scratchpad.lean ====
section
/-! DEFINITION. The scratch instructions: SCRATCH_STORE, SCRATCH_LOAD, SCRATCH_ADD, SCRATCH_COPY (44_scratch.md). The
three that write scratch end with one save of all 8 bytes (R184). -/

namespace Sys2Proof.Machine

/-- `SCRATCH_STORE s value` (R180): `scratch[s] <- value; persist`. -/
def execScratchStore (i value : Byte) (s : State) : Host.Outcome State Fault Refusal :=
  s.checked [.scr i, .value value] ((s.writeScratch i value).emitSave.advance 3)

/-- `SCRATCH_LOAD s addr` (R181): `memory[addr] <- scratch[s]`; scratch is only read and nothing is saved. -/
def execScratchLoad (i addr : Byte) (s : State) : Host.Outcome State Fault Refusal :=
  s.checked [.scr i, .mem addr] ((s.writeMem addr (s.readScratch i)).advance 3)

/-- `SCRATCH_ADD s1 s2 dst` (R182): `scratch[dst] <- (scratch[s1] + scratch[s2]) mod 256; persist`. -/
def execScratchAdd (i1 i2 dst : Byte) (s : State) : Host.Outcome State Fault Refusal :=
  s.checked [.scr i1, .scr i2, .scr dst]
    ((s.writeScratch dst (Alu.add (s.readScratch i1) (s.readScratch i2))).emitSave.advance 4)

/-- `SCRATCH_COPY addr s` (R183): `scratch[s] <- memory[addr]; persist`. -/
def execScratchCopy (addr i : Byte) (s : State) : Host.Outcome State Fault Refusal :=
  s.checked [.mem addr, .scr i] ((s.writeScratch i (s.readMem addr)).emitSave.advance 3)

end Sys2Proof.Machine
end

