-- ==== Sys2Proof/Syntax.lean ====
section
/-! DEFINITION. The instructions: one constructor for each of the 24 rows of spec/opcode_table.json
(30_encoding.md R86), its operands in the order of the row. Every operand is a whole byte (R80, R84). -/

namespace Sys2Proof

/-- The instruction set, "closed and fixed" at 24 (00_scope.md R2, 30_encoding.md R86). -/
inductive Instr where
  /-- `HALT` (00): 41_control.md R140. -/
  | halt
  /-- `SET` (01): the list of coordinate pairs, x first: 42_display.md R150. -/
  | set (pairs : List (Byte × Byte))
  /-- `CLEAR` (02): 42_display.md R151. -/
  | clear (pairs : List (Byte × Byte))
  /-- `WAIT` (03): 41_control.md R141. -/
  | wait (n : Byte)
  /-- `LOOP` (04): 41_control.md R142. -/
  | loop
  /-- `STORE` (05): 43_memory_alu.md R160. -/
  | store (addr value : Byte)
  /-- `LOAD` (06): 42_display.md R153. -/
  | load (addr : Byte)
  /-- `JUMP` (07): 41_control.md R143. -/
  | jump (addr : Byte)
  /-- `JUMPIF` (08): 41_control.md R144. -/
  | jumpif (addr testAddr : Byte)
  /-- `ADD` (09): 43_memory_alu.md R161. -/
  | add (a b dst : Byte)
  /-- `SETALL` (10): 42_display.md R154. -/
  | setall
  /-- `SETNONE` (11): 42_display.md R155. -/
  | setnone
  /-- `SCRATCH_STORE` (12): 44_scratch.md R180. -/
  | scratchStore (s value : Byte)
  /-- `SCRATCH_LOAD` (13): 44_scratch.md R181. -/
  | scratchLoad (s addr : Byte)
  /-- `SCRATCH_ADD` (14): 44_scratch.md R182. -/
  | scratchAdd (s1 s2 dst : Byte)
  /-- `SCRATCH_COPY` (15): 44_scratch.md R183. -/
  | scratchCopy (addr s : Byte)
  /-- `SCRATCH_JUMPIF` (16): 41_control.md R145. -/
  | scratchJumpif (addr s : Byte)
  /-- `AND` (17): 43_memory_alu.md R163. -/
  | and (a b dst : Byte)
  /-- `OR` (18): 43_memory_alu.md R164. -/
  | or (a b dst : Byte)
  /-- `XOR` (19): 43_memory_alu.md R165. -/
  | xor (a b dst : Byte)
  /-- `NOT` (20): 43_memory_alu.md R166. -/
  | not (a dst : Byte)
  /-- `SUB` (21): 43_memory_alu.md R162. -/
  | sub (a b dst : Byte)
  /-- `SHL` (22): 43_memory_alu.md R167. -/
  | shl (a dst : Byte)
  /-- `SHR` (23): 43_memory_alu.md R168. -/
  | shr (a dst : Byte)
deriving DecidableEq, Repr

end Sys2Proof
end

