-- ==== Sys2Proof/Machine/Dispatch.lean ====
section
/-! DEFINITION. The dispatch of 40_step_cycle.md R120: one arm per row of the opcode map. -/

namespace Sys2Proof.Machine

def exec (i : Instr) (s : State) : Host.Outcome State Fault Refusal :=
  match i with
  | .halt => Sys2Proof.Machine.execHalt s
  | .set pairs => Sys2Proof.Machine.execSet pairs s
  | .clear pairs => Sys2Proof.Machine.execClear pairs s
  | .wait n => Sys2Proof.Machine.execWait n s
  | .loop => Sys2Proof.Machine.execLoop s
  | .store addr value => Sys2Proof.Machine.execStore addr value s
  | .load addr => Sys2Proof.Machine.execLoad addr s
  | .jump addr => Sys2Proof.Machine.execJump addr s
  | .jumpif addr testAddr => Sys2Proof.Machine.execJumpif addr testAddr s
  | .add a b dst => Sys2Proof.Machine.execAdd a b dst s
  | .setall => Sys2Proof.Machine.execSetall s
  | .setnone => Sys2Proof.Machine.execSetnone s
  | .scratchStore x value => Sys2Proof.Machine.execScratchStore x value s
  | .scratchLoad x addr => Sys2Proof.Machine.execScratchLoad x addr s
  | .scratchAdd x1 x2 dst => Sys2Proof.Machine.execScratchAdd x1 x2 dst s
  | .scratchCopy addr x => Sys2Proof.Machine.execScratchCopy addr x s
  | .scratchJumpif addr x => Sys2Proof.Machine.execScratchJumpif addr x s
  | .and a b dst => Sys2Proof.Machine.execAnd a b dst s
  | .or a b dst => Sys2Proof.Machine.execOr a b dst s
  | .xor a b dst => Sys2Proof.Machine.execXor a b dst s
  | .not a dst => Sys2Proof.Machine.execNot a dst s
  | .sub a b dst => Sys2Proof.Machine.execSub a b dst s
  | .shl a dst => Sys2Proof.Machine.execShl a dst s
  | .shr a dst => Sys2Proof.Machine.execShr a dst s

end Sys2Proof.Machine
end

