-- ==== Sys2Proof/WellFormed.lean ====
section
/-! DEFINITION. Which terms of Instr an encoding can hold. Every operand byte is legal in an encoding
(30_encoding.md R82, R88: an operand out of its run-time range is a run-time error, not another instruction), so
the one check is that the pair count of `SET` and `CLEAR` fits its count byte (R81, R82 kind N). -/

namespace Sys2Proof

/-- The number of pairs fits the count byte. -/
def countFits (pairs : List (Byte × Byte)) : Bool :=
  decide (pairs.length ≤ 255)

/-- The instruction can be encoded. -/
def Instr.wf : Instr → Bool
  | .set pairs => countFits pairs
  | .clear pairs => countFits pairs
  | .halt => true
  | .wait _ => true
  | .loop => true
  | .store _ _ => true
  | .load _ => true
  | .jump _ => true
  | .jumpif _ _ => true
  | .add _ _ _ => true
  | .setall => true
  | .setnone => true
  | .scratchStore _ _ => true
  | .scratchLoad _ _ => true
  | .scratchAdd _ _ _ => true
  | .scratchCopy _ _ => true
  | .scratchJumpif _ _ => true
  | .and _ _ _ => true
  | .or _ _ _ => true
  | .xor _ _ _ => true
  | .not _ _ => true
  | .sub _ _ _ => true
  | .shl _ _ => true
  | .shr _ _ => true

/-- Well-formedness as a proposition. -/
abbrev Instr.WellFormed (i : Instr) : Prop := i.wf = true

end Sys2Proof
end

