-- ==== Sys2Proof/Decode.lean ====
section
/-! DEFINITION. Decoding and encoding. The opcode byte alone selects the instruction (30_encoding.md R80); operand
bytes follow it at ascending addresses in the order of R86. The decoder is total on any bytes and rejects by name. -/

namespace Sys2Proof

/-- The 24 rows of the opcode map, by mnemonic (30_encoding.md R86). -/
inductive Opcode where
  | HALT | SET | CLEAR | WAIT | LOOP | STORE | LOAD | JUMP | JUMPIF | ADD
  | SETALL | SETNONE | SCRATCH_STORE | SCRATCH_LOAD | SCRATCH_ADD | SCRATCH_COPY | SCRATCH_JUMPIF
  | AND | OR | XOR | NOT | SUB | SHL | SHR
deriving DecidableEq, Repr

/-- The opcode byte of each row: the ONE table of opcode values (R86; U9 asks for one place). The values are not
contiguous: "as if decimal 0 to 23 had been written with a hexadecimal prefix". -/
def Opcode.byte : Opcode → Byte
  | .HALT => 0x00
  | .SET => 0x01
  | .CLEAR => 0x02
  | .WAIT => 0x03
  | .LOOP => 0x04
  | .STORE => 0x05
  | .LOAD => 0x06
  | .JUMP => 0x07
  | .JUMPIF => 0x08
  | .ADD => 0x09
  | .SETALL => 0x10
  | .SETNONE => 0x11
  | .SCRATCH_STORE => 0x12
  | .SCRATCH_LOAD => 0x13
  | .SCRATCH_ADD => 0x14
  | .SCRATCH_COPY => 0x15
  | .SCRATCH_JUMPIF => 0x16
  | .AND => 0x17
  | .OR => 0x18
  | .XOR => 0x19
  | .NOT => 0x20
  | .SUB => 0x21
  | .SHL => 0x22
  | .SHR => 0x23

/-- Every row of the map, in its order. -/
def Opcode.all : List Opcode :=
  [.HALT, .SET, .CLEAR, .WAIT, .LOOP, .STORE, .LOAD, .JUMP, .JUMPIF, .ADD,
   .SETALL, .SETNONE, .SCRATCH_STORE, .SCRATCH_LOAD, .SCRATCH_ADD, .SCRATCH_COPY, .SCRATCH_JUMPIF,
   .AND, .OR, .XOR, .NOT, .SUB, .SHL, .SHR]

/-- The row a byte selects; none for the 232 illegal values (R87). -/
def Opcode.ofByte (b : Byte) : Option Opcode :=
  Opcode.all.find? fun o => o.byte == b

/-- Why the decoder rejects a list of bytes. -/
inductive DecodeError where
  /-- There is not even an opcode byte. -/
  | noBytes
  /-- The first byte is in no row of the opcode map (30_encoding.md R87). -/
  | unknownOpcode (b : Byte)
  /-- The list ends before the operands do (40_step_cycle.md R126). -/
  | truncated
deriving DecidableEq, Repr

/-- What decoding answers: the instruction and the bytes after it, or the reason of the rejection. -/
abbrev Decoded := Except DecodeError (Instr × List Byte)

/-- Format F1: one operand byte (30_encoding.md R81). -/
def operand1 (make : Byte → Instr) : List Byte → Decoded
  | a :: rest => .ok (make a, rest)
  | _ => .error .truncated

/-- Format F2: two operand bytes (R81). -/
def operand2 (make : Byte → Byte → Instr) : List Byte → Decoded
  | a :: b :: rest => .ok (make a b, rest)
  | _ => .error .truncated

/-- Format F3: three operand bytes (R81). -/
def operand3 (make : Byte → Byte → Byte → Instr) : List Byte → Decoded
  | a :: b :: c :: rest => .ok (make a b c, rest)
  | _ => .error .truncated

/-- `n` coordinate pairs, each x then y (R81, R85), and the bytes after them. -/
def takePairs : Nat → List Byte → Option (List (Byte × Byte) × List Byte)
  | 0, rest => some ([], rest)
  | n + 1, x :: y :: rest => (takePairs n rest).map fun r => ((x, y) :: r.1, r.2)
  | _ + 1, _ => none

/-- Format FV: a count byte, then that many pairs (R81, R85). -/
def operandPairs (make : List (Byte × Byte) → Instr) : List Byte → Decoded
  | count :: bytes =>
    match takePairs count.toNat bytes with
    | some (pairs, rest) => .ok (make pairs, rest)
    | none => .error .truncated
  | [] => .error .truncated

/-- The operands of an instruction, read from the bytes after its opcode in the order of R86. -/
def decodeOperands (op : Opcode) (bytes : List Byte) : Decoded :=
  match op with
  | .HALT => .ok (.halt, bytes)
  | .SET => operandPairs .set bytes
  | .CLEAR => operandPairs .clear bytes
  | .WAIT => operand1 .wait bytes
  | .LOOP => .ok (.loop, bytes)
  | .STORE => operand2 .store bytes
  | .LOAD => operand1 .load bytes
  | .JUMP => operand1 .jump bytes
  | .JUMPIF => operand2 .jumpif bytes
  | .ADD => operand3 .add bytes
  | .SETALL => .ok (.setall, bytes)
  | .SETNONE => .ok (.setnone, bytes)
  | .SCRATCH_STORE => operand2 .scratchStore bytes
  | .SCRATCH_LOAD => operand2 .scratchLoad bytes
  | .SCRATCH_ADD => operand3 .scratchAdd bytes
  | .SCRATCH_COPY => operand2 .scratchCopy bytes
  | .SCRATCH_JUMPIF => operand2 .scratchJumpif bytes
  | .AND => operand3 .and bytes
  | .OR => operand3 .or bytes
  | .XOR => operand3 .xor bytes
  | .NOT => operand2 .not bytes
  | .SUB => operand3 .sub bytes
  | .SHL => operand2 .shl bytes
  | .SHR => operand2 .shr bytes

/-- The decoder: the opcode byte selects, then the operands are read (R80). No state other than these bytes plays a
part (R89). -/
def decode : List Byte → Decoded
  | [] => .error .noBytes
  | b :: bytes =>
    match Opcode.ofByte b with
    | some op => decodeOperands op bytes
    | none => .error (.unknownOpcode b)

/-- The row of the opcode map an instruction belongs to. -/
def Instr.opcode : Instr → Opcode
  | .halt => .HALT
  | .set _ => .SET
  | .clear _ => .CLEAR
  | .wait _ => .WAIT
  | .loop => .LOOP
  | .store _ _ => .STORE
  | .load _ => .LOAD
  | .jump _ => .JUMP
  | .jumpif _ _ => .JUMPIF
  | .add _ _ _ => .ADD
  | .setall => .SETALL
  | .setnone => .SETNONE
  | .scratchStore _ _ => .SCRATCH_STORE
  | .scratchLoad _ _ => .SCRATCH_LOAD
  | .scratchAdd _ _ _ => .SCRATCH_ADD
  | .scratchCopy _ _ => .SCRATCH_COPY
  | .scratchJumpif _ _ => .SCRATCH_JUMPIF
  | .and _ _ _ => .AND
  | .or _ _ _ => .OR
  | .xor _ _ _ => .XOR
  | .not _ _ => .NOT
  | .sub _ _ _ => .SUB
  | .shl _ _ => .SHL
  | .shr _ _ => .SHR

/-- The bytes of a list of pairs, x then y, "in the order given" (R85). -/
def pairBytes : List (Byte × Byte) → List Byte
  | [] => []
  | (x, y) :: rest => x :: y :: pairBytes rest

/-- The operand bytes of format FV: the count byte, then the pairs (R81). -/
def countedPairs (pairs : List (Byte × Byte)) : List Byte :=
  BitVec.ofNat 8 pairs.length :: pairBytes pairs

/-- The operand bytes, in the order of R86. -/
def Instr.operandBytes : Instr → List Byte
  | .halt => []
  | .set pairs => countedPairs pairs
  | .clear pairs => countedPairs pairs
  | .wait n => [n]
  | .loop => []
  | .store addr value => [addr, value]
  | .load addr => [addr]
  | .jump addr => [addr]
  | .jumpif addr testAddr => [addr, testAddr]
  | .add a b dst => [a, b, dst]
  | .setall => []
  | .setnone => []
  | .scratchStore s value => [s, value]
  | .scratchLoad s addr => [s, addr]
  | .scratchAdd s1 s2 dst => [s1, s2, dst]
  | .scratchCopy addr s => [addr, s]
  | .scratchJumpif addr s => [addr, s]
  | .and a b dst => [a, b, dst]
  | .or a b dst => [a, b, dst]
  | .xor a b dst => [a, b, dst]
  | .not a dst => [a, dst]
  | .sub a b dst => [a, b, dst]
  | .shl a dst => [a, dst]
  | .shr a dst => [a, dst]

/-- The encoder: "opcode byte followed by operand bytes" (30_encoding.md R80, R100). -/
def encode (i : Instr) : List Byte :=
  i.opcode.byte :: i.operandBytes

/-- The length of the longest instruction: `2 + 2 * 255` bytes (R83). -/
def longestInstr : Nat := 512

/-- The low `n` bytes of `w`, the least significant first: byte k of an instruction holds bits 8k+7 to 8k of its
table word, and the first byte lies at the lowest address (R54). -/
def wordBytes : Nat → Nat → List Byte
  | 0, _ => []
  | n + 1, w => BitVec.ofNat 8 w :: wordBytes n (w / 256)

/-- The bytes of an instruction given as a table word of `nbits` bits, every bit above them 0, up to the longest
instruction. -/
def tableBytes (nbits w : Nat) : List Byte :=
  wordBytes ((nbits + 7) / 8) w ++ List.replicate longestInstr 0

/-- The instruction the decoder reads from a table word. -/
def decodeTableWord (nbits w : Nat) : Option Instr :=
  match decode (tableBytes nbits w) with
  | .ok (i, _) => some i
  | .error _ => none

end Sys2Proof
end

