-- ==== Sys2Proof/Machine/Fetch.lean ====
section
/-! DEFINITION. The fetch: which bytes the decoder is given, and which error a rejected fetch raises
(40_step_cycle.md R124, R125). -/

namespace Sys2Proof.Machine.State

/-- The bytes of memory from `pc` to its end. No read goes beyond the end and none wraps to address 0
(40_step_cycle.md R126). -/
def memoryFromPc (s : State) : List Byte :=
  s.memory.bytes s.pc.toNat (s.memBytes - s.pc.toNat)

/-- What the decoder is given: the bytes of memory from `pc` on, then placeholders for operand bytes that do not
exist. A handler checks that its operands exist before it uses one (R126), so no placeholder is ever used (log 9). -/
def fetchBytes (s : State) : List Byte :=
  s.memoryFromPc ++ List.replicate longestInstr 0

/-- Fetch and decode: the instruction at `pc`, or the error of a byte that is no opcode (R125). The other two answers
of the decoder do not occur on fetchBytes; they are the errors of a missing opcode byte and of missing operands. -/
def fetchDecode (s : State) : Except ErrorCode Instr :=
  match decode s.fetchBytes with
  | .ok (i, _) => .ok i
  | .error (.unknownOpcode _) => .error .unknownOpcode
  | .error .truncated => .error .argsOutOfRange
  | .error .noBytes => .error .pcOutOfRange

/-- The state a successful Load of an instruction leaves, as far as the fetch needs it: its bytes at `pc` (those that
memory has room for), the machine running, no wait and no error (50_interfaces.md R203). A `pc` beyond memory is
moved to address 0 (log 4). -/
def placeInstr (s : State) (bytes : List Byte) : State :=
  let at' := if s.pc.toNat < s.memBytes then s.pc else 0
  { s with
    memory := s.memory.writeBytes at'.toNat (bytes.take (s.memBytes - at'.toNat))
    pc := at'
    delayRemaining := 0
    delayTotal := 0
    running := true
    error := .none }

end Sys2Proof.Machine.State
end

