-- ==== Sys2Proof/Machine/Step.lean ====
section
/-! DEFINITION. One step (40_step_cycle.md R120). -/

namespace Sys2Proof.Machine

/-- `Step()`: nothing when halted, one wait tick, one error halt found before the fetch, or the fetch, decode and
complete execution of one instruction (R120). -/
def step (s : State) : Host.Outcome State Fault Refusal :=
  match s.beforeDispatch with
  | some t => .next t
  | none =>
    match s.fetchDecode with
    | .ok i => exec i s
    | .error e => .next (s.raise e)

/-- `s` with the instruction of a table word stored where the next step fetches, so that this step runs it. The machine
runs nothing until a Load (70_reset_and_hazards.md R263), so this stands for one (log 4). -/
def State.withFetchWord (s : State) (nbits w : Nat) : State :=
  s.placeInstr (tableBytes nbits w)

end Sys2Proof.Machine
end

