-- ==== Sys2Proof/Machine/Assembler.lean ====
section
/-! DEFINITION. The assembler: the toolchain that makes the memory image a Load takes (30_encoding.md R95 to R106). It
is not part of the hardware (00_scope.md R5); it stands here so that a Load of program text is modelled too. The text is
a list of characters. Forms that the spec says are not defined are refused by name (log 21); which of the four classes
an error has, where the spec does not say, is the model's choice (log 28). -/

namespace Sys2Proof.Machine

/-- The classes of an assembly-time error (30_encoding.md R103, 60_exceptions.md R239). The spec names the four and says
of few errors which class they have; the rest of the mapping is the model's choice (log 28). -/
inductive AsmErrorKind where
  | invalidMnemonic
  | malformedOperand
  | outOfRange
  | notEnoughMemory
deriving DecidableEq, Repr

/-- Statement forms the spec says the source does not define; assembling one has no meaning. -/
inductive AsmUndefined where
  /-- `SET` or `CLEAR` with no pair (30_encoding.md R99, 91_not_in_source.md N15). -/
  | emptyPairList
  /-- A number sign behind the mnemonic of a statement, as a comment on the same line would have it (R95, N14). -/
  | trailingComment
  /-- A number in another radix, with a sign, or a character literal (R97, N16). -/
  | literalForm
deriving DecidableEq, Repr

/-- Why a line is not assembled. -/
inductive LineProblem where
  | error (kind : AsmErrorKind)
  | undefined (form : AsmUndefined)
deriving DecidableEq, Repr

/-- The assembler at work: the image so far, the entry point, the write cursor and the debug map, which is host-side
data (R101, R102, 10_state.md R33). -/
structure Assembly where
  size : MemSize
  image : List Byte
  entryPoint : Nat
  cursor : Nat
  /-- `addressToSourceLine`: address and 1-based line, the newest first. -/
  debugMap : List (Nat × Nat)
deriving DecidableEq, Repr

/-- What assembling a text gives. -/
inductive AsmResult where
  /-- Every line was assembled (R104). -/
  | success (a : Assembly)
  /-- "Error on line {n}: {message}"; what was written before stays (R103). -/
  | failure (a : Assembly) (line : Nat) (kind : AsmErrorKind)
  /-- A line has a form the spec does not define. -/
  | undefined (line : Nat) (form : AsmUndefined)
deriving DecidableEq, Repr

/-! ## Text -/

/-- The parts of a text between separators, empty parts included. -/
def splitParts (sep : Char → Bool) : List Char → List (List Char)
  | [] => [[]]
  | c :: rest =>
    match splitParts sep rest with
    | [] => [[c]]
    | part :: parts => if sep c then [] :: part :: parts else (c :: part) :: parts

/-- White space inside a line (R95). -/
def isBlank (c : Char) : Bool :=
  c == ' ' || c == '\t' || c == '\r'

/-- "Tokenize on whitespace" (R96). -/
def tokens (line : List Char) : List (List Char) :=
  (splitParts isBlank line).filter fun t => !t.isEmpty

/-- The value of decimal digits, read on from `acc`. -/
def decimalFrom (acc : Nat) : List Char → Option Nat
  | [] => some acc
  | c :: rest => if c.isDigit then decimalFrom (acc * 10 + (c.toNat - '0'.toNat)) rest else none

/-- A digit of base 16, in either case. -/
def isHexDigit (c : Char) : Bool :=
  c.isDigit || ['A', 'B', 'C', 'D', 'E', 'F'].contains c.toUpper

/-- A number in another radix (R97, N16). DESIGN CHOICE, which spellings are one (log 21), letters in either case: base
16 behind `0x` or behind `$`; base 16 that begins with a decimal digit, plain or with a closing `h` (base 2 with `0b` is
spelled so too); base 8 behind `0o`. Base 16 that begins with a letter is none, plain (`FF`) or with a closing `h`
(`FFh`), and neither are two of these marks together (`0x1Fh`, `$1Fh`): such a token is a malformed operand. -/
def isRadixForm (tok : List Char) : Bool :=
  match tok.map Char.toUpper with
  | '0' :: 'X' :: d :: ds => (d :: ds).all isHexDigit
  | '0' :: 'O' :: d :: ds => (d :: ds).all fun c => c.isDigit && c != '8' && c != '9'
  | '$' :: d :: ds => (d :: ds).all isHexDigit
  | d :: ds => d.isDigit && (if ds.getLast? == some 'H' then ds.dropLast else ds).all isHexDigit
  | [] => false

/-- A plus or minus sign before decimal digits or a radix form (R97, N16; log 21). -/
def isSignForm : List Char → Bool
  | c :: d :: ds => (c.toNat == 43 || c.toNat == 45) && ((d :: ds).all Char.isDigit || isRadixForm (d :: ds))
  | _ => false

/-- At least one character between two equal quotes, single or double (R97, N16; log 21). -/
def isCharForm : List Char → Bool
  | q :: _ :: rest => (q.toNat == 34 || q.toNat == 39) && rest.getLast? == some q
  | _ => false

/-- An integer operand: unsigned decimal (R97, decision D19). A token in another radix, with a sign, or that is a
character literal is not defined (log 21); any other token "does not parse" and is a malformed operand (R97). -/
def parseNumber (tok : List Char) : Except LineProblem Nat :=
  if tok.isEmpty then .error (.error .malformedOperand)
  else
    match decimalFrom 0 tok with
    | some n => .ok n
    | none =>
      if isRadixForm tok || isSignForm tok || isCharForm tok then .error (.undefined .literalForm)
      else .error (.error .malformedOperand)

/-! ## Statements -/

/-- The 23 mnemonics a statement may use; opcode 00 has none (R96, decision D18). -/
def mnemonicTable : List (List Char × Opcode) :=
  [(['S', 'E', 'T'], .SET), (['C', 'L', 'E', 'A', 'R'], .CLEAR), (['W', 'A', 'I', 'T'], .WAIT),
   (['L', 'O', 'O', 'P'], .LOOP), (['S', 'T', 'O', 'R', 'E'], .STORE), (['L', 'O', 'A', 'D'], .LOAD),
   (['J', 'U', 'M', 'P'], .JUMP), (['J', 'U', 'M', 'P', 'I', 'F'], .JUMPIF), (['A', 'D', 'D'], .ADD),
   (['S', 'E', 'T', 'A', 'L', 'L'], .SETALL), (['S', 'E', 'T', 'N', 'O', 'N', 'E'], .SETNONE)] ++
  [(['S', 'C', 'R', 'A', 'T', 'C', 'H', '_', 'S', 'T', 'O', 'R', 'E'], .SCRATCH_STORE),
   (['S', 'C', 'R', 'A', 'T', 'C', 'H', '_', 'L', 'O', 'A', 'D'], .SCRATCH_LOAD),
   (['S', 'C', 'R', 'A', 'T', 'C', 'H', '_', 'A', 'D', 'D'], .SCRATCH_ADD),
   (['S', 'C', 'R', 'A', 'T', 'C', 'H', '_', 'C', 'O', 'P', 'Y'], .SCRATCH_COPY),
   (['S', 'C', 'R', 'A', 'T', 'C', 'H', '_', 'J', 'U', 'M', 'P', 'I', 'F'], .SCRATCH_JUMPIF)] ++
  [(['A', 'N', 'D'], .AND), (['O', 'R'], .OR), (['X', 'O', 'R'], .XOR), (['N', 'O', 'T'], .NOT),
   (['S', 'U', 'B'], .SUB), (['S', 'H', 'L'], .SHL), (['S', 'H', 'R'], .SHR)]

/-- What an integer operand is checked against (30_encoding.md R82, R100). -/
inductive OperandKind where
  /-- Kinds M and T: below `MEM_SIZE`. -/
  | address
  /-- Kind S: below 8. -/
  | scratchIndex
  /-- Kinds V and N: 0 to 255. -/
  | byte
deriving DecidableEq, Repr

/-- The integer operands of each statement, in the order of R86; `SET` and `CLEAR` have their own form (R99). -/
def operandKinds : Opcode → List OperandKind
  | .HALT => []
  | .SET => []
  | .CLEAR => []
  | .WAIT => [.byte]
  | .LOOP => []
  | .STORE => [.address, .byte]
  | .LOAD => [.address]
  | .JUMP => [.address]
  | .JUMPIF => [.address, .address]
  | .ADD => [.address, .address, .address]
  | .SETALL => []
  | .SETNONE => []
  | .SCRATCH_STORE => [.scratchIndex, .byte]
  | .SCRATCH_LOAD => [.scratchIndex, .address]
  | .SCRATCH_ADD => [.scratchIndex, .scratchIndex, .scratchIndex]
  | .SCRATCH_COPY => [.address, .scratchIndex]
  | .SCRATCH_JUMPIF => [.address, .scratchIndex]
  | .AND => [.address, .address, .address]
  | .OR => [.address, .address, .address]
  | .XOR => [.address, .address, .address]
  | .NOT => [.address, .address]
  | .SUB => [.address, .address, .address]
  | .SHL => [.address, .address]
  | .SHR => [.address, .address]

/-- How many values an operand of this kind has in a machine of this size. -/
def OperandKind.bound (size : MemSize) : OperandKind → Nat
  | .address => Config.memBytes size
  | .scratchIndex => Config.scratchSize
  | .byte => 256

/-- The integers of a statement: exactly the row's number of operands, each in its range (R100). DESIGN CHOICE, where
R100 and R103 name no class (log 28): a wrong number of operands is a malformed operand, a value or count above 255 is
out of range, and the first error from left to right is the one reported, the number of operands last. -/
def assembleOperands (size : MemSize) : List OperandKind → List (List Char) → Except LineProblem (List Nat)
  | [], [] => .ok []
  | kind :: kinds, tok :: toks =>
    match parseNumber tok with
    | .error p => .error p
    | .ok n =>
      if kind.bound size ≤ n then .error (.error .outOfRange)
      else (assembleOperands size kinds toks).map fun ns => n :: ns
  | _, _ => .error (.error .malformedOperand)

/-- The bytes of the comma-separated pairs of `SET` and `CLEAR`: each part is two coordinates, 0 to 3 (R99). DESIGN
CHOICE (log 28): a part of another number of tokens is a malformed operand, and both coordinates of a pair are parsed
before either is compared with 3, so `SET 9 z` and `SET 9 9 9` are malformed and not out of range. -/
def assemblePairs : List (List Char) → Except LineProblem (List Byte)
  | [] => .ok []
  | part :: parts =>
    match tokens part with
    | [tx, ty] =>
      match parseNumber tx, parseNumber ty with
      | .ok x, .ok y =>
        if Config.displaySize ≤ x || Config.displaySize ≤ y then .error (.error .outOfRange)
        else (assemblePairs parts).map fun bytes => BitVec.ofNat 8 x :: BitVec.ofNat 8 y :: bytes
      | .error p, _ => .error p
      | _, .error p => .error p
    | _ => .error (.error .malformedOperand)

/-- The bytes of one statement: opcode byte, then operand bytes (R99, R100). `text` is what follows the mnemonic. -/
def assembleStatement (size : MemSize) (op : Opcode) (text : List Char) : Except LineProblem (List Byte) :=
  if op = .SET ∨ op = .CLEAR then
    if (tokens text).isEmpty then .error (.undefined .emptyPairList)
    else
      (assemblePairs (splitParts (· == ',') text)).map fun bytes =>
        op.byte :: BitVec.ofNat 8 (bytes.length / 2) :: bytes
  else
    (assembleOperands size (operandKinds op) (tokens text)).map fun ns => op.byte :: ns.map (BitVec.ofNat 8)

/-- A statement's bytes written at the cursor, which then advances by their number; they must all lie below `MEM_SIZE`
(R101). The debug map records the line (R102). -/
def Assembly.emitBytes (a : Assembly) (line : Nat) (bytes : List Byte) : Except LineProblem Assembly :=
  if Config.memBytes a.size < a.cursor + bytes.length then .error (.error .notEnoughMemory)
  else
    .ok { a with
      image := a.image.take a.cursor ++ bytes ++ a.image.drop (a.cursor + bytes.length)
      cursor := a.cursor + bytes.length
      debugMap := (a.cursor, line) :: a.debugMap }

/-- `EP addr`: the entry point and the cursor become `addr`, which must be below `MEM_SIZE`; nothing is emitted (R98). -/
def Assembly.entry (a : Assembly) (text : List Char) : Except LineProblem Assembly :=
  match assembleOperands a.size [.address] (tokens text) with
  | .ok [addr] => .ok { a with entryPoint := addr, cursor := addr }
  | .ok _ => .error (.error .malformedOperand)
  | .error p => .error p

/-- What a statement gives, unless a number sign stands behind its mnemonic (R95, N14; log 21). -/
def withoutComment (operands : List Char) (result : Except LineProblem Assembly) : Except LineProblem Assembly :=
  if operands.contains '#' then .error (.undefined .trailingComment) else result

/-- One line (R95, R96): blank lines and comment lines give nothing; the first token is the mnemonic, in any case, and
one that is not recognised is an error whatever follows it. -/
def Assembly.line (a : Assembly) (n : Nat) (text : List Char) : Except LineProblem Assembly :=
  match tokens text with
  | [] => .ok a
  | first :: _ =>
    if first.head? = some '#' then .ok a
    else
      let after := (text.dropWhile isBlank).drop first.length
      let mnemonic := first.map Char.toUpper
      if mnemonic = ['E', 'P'] then withoutComment after (a.entry after)
      else
        match mnemonicTable.lookup mnemonic with
        | none => .error (.error .invalidMnemonic)
        | some op =>
          withoutComment after
            (match assembleStatement a.size op after with
            | .error p => .error p
            | .ok bytes => a.emitBytes n bytes)

/-- The lines from number `n` on, in a single forward pass that stops at the first error (R101, R103). -/
def Assembly.lines (a : Assembly) (n : Nat) : List (List Char) → AsmResult
  | [] => .success a
  | text :: rest =>
    match a.line n text with
    | .ok b => b.lines (n + 1) rest
    | .error (.error kind) => .failure a n kind
    | .error (.undefined form) => .undefined n form

/-- The assembler before its first line: memory all 0, no entry point, the cursor at 0 (R101, R106). -/
def Assembly.start (size : MemSize) : Assembly where
  size := size
  image := List.replicate (Config.memBytes size) 0
  entryPoint := 0
  cursor := 0
  debugMap := []

/-- Assembling a program text for a memory of this size. Lines are counted from 1, every physical line counts (R95). -/
def assemble (size : MemSize) (text : List Char) : AsmResult :=
  (Assembly.start size).lines 1 (splitParts (· == '\n') text)

end Sys2Proof.Machine
end

