-- ==== Sys2Proof/Machine/HostOps.lean ====
section
/-! DEFINITION. The host operations other than Step (50_interfaces.md R200 to R204). They happen between steps, each
atomic (R216). The read-only views of R206 are the fields of State; there is no stop and no poke (R207, R215). -/

namespace Sys2Proof.Machine

/-- `Construct` with a legal size (R201): `stored` is what the one `load()` of the persistence port gives, none when the
image is missing or corrupt, which leaves scratch all zero (R214) and is reported to the log sink (60_exceptions.md
R240; log 7). `display` is what the display shows, which construction does not touch (`DISPLAY_INIT`, R211). -/
def State.construct (size : MemSize) (stored : Option Scratch) (display : Display) : State where
  memSize := size
  memory := Memory.zero
  scratch := stored.getD Scratch.zero
  pc := 0
  entryPoint := 0
  delayRemaining := 0
  delayTotal := 0
  running := false
  error := .none
  trace := []
  display := display
  store := ⟨stored, if stored = none then [.loadFailed] else [], 0⟩

/-- `Construct(MEM_SIZE, store)` for any number: a size outside 32, 64, 128, 256 is refused (R201, U11). -/
def construct (size : Nat) (stored : Option Scratch) (display : Display) : Option State :=
  (Config.memSizeOf size).map fun m => State.construct m stored display

namespace State

/-- `Reset()` (R202): memory zeroed, `pc` at the entry point, no wait, not running, no error; scratch and the entry
point are kept and no event is emitted. It is also the way out of an error halt (60_exceptions.md R236). -/
def hostReset (s : State) : State :=
  { s with
    memory := Memory.zero
    pc := s.entryPoint.setWidth 9
    delayRemaining := 0
    delayTotal := 0
    running := false
    error := .none }

/-- `Load` of an assembled image, success (R203). An image that is not exactly `MEM_SIZE` bytes or an entry point
outside memory cannot come from the assembler and is refused (U12). -/
def load (s : State) (image : List Byte) (ep : Nat) : Option State :=
  if image.length = s.memBytes ∧ ep < s.memBytes then
    some { s with
      memory := Memory.ofImage image
      entryPoint := BitVec.ofNat 8 ep
      pc := BitVec.ofNat 9 ep
      delayRemaining := 0
      delayTotal := 0
      running := true
      error := .none }
  else none

/-- `Load`, failure (R204): the partial image and entry point of the lines before the failing one stay, the machine
does not run, and the code is `AsmError`. -/
def loadFailed (s : State) (image : List Byte) (ep : Nat) : State :=
  { s with
    memory := Memory.ofImage image
    entryPoint := BitVec.ofNat 8 ep
    pc := 0
    delayRemaining := 0
    delayTotal := 0
    running := false
    error := .asmError }

end State

/-- What a Load of a program text answers. -/
inductive LoadResult where
  /-- The program runs from the next step (50_interfaces.md R203). -/
  | loaded (s : State)
  /-- The assembler stopped; the host keeps the line and the class for its message (R204). -/
  | failed (s : State) (line : Nat) (kind : AsmErrorKind)
  /-- The text has a form the spec does not define, or the image cannot come from the assembler (U12). -/
  | refused
deriving DecidableEq, Repr

/-- `Load(program)`: the assembler runs on the text, then its result is loaded in one atomic operation (R203, R204). -/
def State.loadProgram (s : State) (text : List Char) : LoadResult :=
  match assemble s.memSize text with
  | .success a =>
    match s.load a.image a.entryPoint with
    | some t => .loaded t
    | none => .refused
  | .failure a line kind => .failed (s.loadFailed a.image a.entryPoint) line kind
  | .undefined _ _ => .refused

end Sys2Proof.Machine
end

