-- ==== Sys2Proof/Safety.lean ====
section
/-! DEFINITION. The terms the statements use: the states of the state machine, what a step leaves unchanged, the
invariants of 10_state.md R34, and which instructions may write which space. -/

namespace Sys2Proof.Machine

/-- The states of the source's state machine; Idle and Halted(clean) are equal on `running` and `error`, and so are
Loaded and Running (00_scope.md R13). -/
inductive Status where
  | idleOrHaltedClean
  | haltedError
  | running
  | waiting
deriving DecidableEq, Repr

namespace State

/-- The state of the state machine, read from the state variables (R13). -/
def status (s : State) : Status :=
  if s.running then (if s.delayRemaining = 0 then .running else .waiting)
  else if s.error = .none then .idleOrHaltedClean else .haltedError

/-- The invariants between steps (10_state.md R34 a to g, with R26), and the canonical form of the memory list. -/
abbrev Inv (s : State) : Prop :=
  (s.error ≠ .none → s.running = false) ∧
  (s.running = false → s.delayRemaining = 0 ∧ s.delayTotal = 0) ∧
  s.delayRemaining.toNat ≤ s.delayTotal.toNat ∧
  (s.delayRemaining = 0 → s.delayTotal = 0) ∧
  s.entryPoint.toNat < s.memBytes ∧
  s.pc.toNat ≤ 256 ∧
  s.memory.wf = true ∧
  s.memory.within s.memBytes = true

/-- The step after which the machine dispatches: running, no wait, `pc` inside memory (40_step_cycle.md R120). -/
abbrev Dispatching (s : State) : Prop :=
  s.running = true ∧ s.delayRemaining = 0 ∧ s.pc.toNat < s.memBytes

/-- Every byte of memory reads as before. -/
def SameMemory (s t : State) : Prop :=
  ∀ a : Nat, t.memory.read a = s.memory.read a

/-- The byte at `d` reads `v`, every other byte reads as before. -/
def MemoryButOne (s t : State) (d : Nat) (v : Byte) : Prop :=
  t.memory.read d = v ∧ ∀ a : Nat, a ≠ d → t.memory.read a = s.memory.read a

/-- `x[d]` is `v`, the other scratch registers are as before. -/
def ScratchButOne (s t : State) (d : Nat) (v : Byte) : Prop :=
  ∀ i : Fin Config.scratchSize, t.scratch.get i = if i.val = d then v else s.scratch.get i

/-- `MEM_SIZE` and the entry point, which no instruction writes, are as before. -/
def SameFixed (s t : State) : Prop :=
  t.memSize = s.memSize ∧ t.entryPoint = s.entryPoint

/-- The delay counters are as before. -/
def SameDelays (s t : State) : Prop :=
  t.delayRemaining = s.delayRemaining ∧ t.delayTotal = s.delayTotal

/-- `running` and `error` are as before. -/
def SameRun (s t : State) : Prop :=
  t.running = s.running ∧ t.error = s.error

/-- Every control register but `pc` is as before. -/
def SameControl (s t : State) : Prop :=
  SameFixed s t ∧ SameDelays s t ∧ SameRun s t

/-- No event was sent, and nothing at the far side of the ports changed. -/
def SamePorts (s t : State) : Prop :=
  t.trace = s.trace ∧ t.display = s.display ∧ t.store = s.store

/-- Exactly these events were sent, in this order. -/
def Sent (s t : State) (events : List Event) : Prop :=
  t.trace = s.trace ++ events

/-- The two states agree on `MEM_SIZE` and the eight variables of 10_state.md R20. -/
def SameMachine (s t : State) : Prop :=
  t.memory = s.memory ∧ t.scratch = s.scratch ∧ t.pc = s.pc ∧ SameControl s t

/-- The error halt of 60_exceptions.md R234: `running` and `error` written, everything else kept. -/
def ErrorHalt (s : State) (e : ErrorCode) (o : Host.Outcome State Fault Refusal) : Prop :=
  o = .next { s with running := false, error := e }

/-- One save was made of the scratch `t` holds: it made the durable image equal to that scratch, or it failed, left
the image stale and was reported to the log sink (50_interfaces.md R213, 44_scratch.md R184). -/
def SavedOnce (s t : State) : Prop :=
  s.Sent t [.save t.scratch] ∧ t.display = s.display ∧
  ((t.store.image = some t.scratch ∧ t.store.log = s.store.log) ∨
    (t.store.image = s.store.image ∧ t.store.log = s.store.log ++ [.saveFailed]))

end State

/-- Pixel (x, y) after these events, when it was `old` before them (50_interfaces.md R209, R210). -/
def pixelAfter (x y : Fin Config.displaySize) (old : Bool) : List Event → Bool
  | [] => old
  | .setPixel x' y' on :: rest => pixelAfter x y (if x' = x ∧ y' = y then on else old) rest
  | .clearAll :: rest => pixelAfter x y false rest
  | .save _ :: rest => pixelAfter x y old rest

/-- The images saved by these events, in order. -/
def savedImages : List Event → List Scratch
  | [] => []
  | .save img :: rest => img :: savedImages rest
  | .setPixel _ _ _ :: rest => savedImages rest
  | .clearAll :: rest => savedImages rest

/-- Both coordinates of a pair are 0 to 3 (40_step_cycle.md R129). -/
def pairInRange (p : Byte × Byte) : Bool :=
  decide (p.1.toNat < 4) && decide (p.2.toNat < 4)

/-- The event of a pair that is in range (42_display.md R150, R151). -/
def pairEvent (on : Bool) (p : Byte × Byte) : Event :=
  .setPixel (Fin.ofNat 4 p.1.toNat) (Fin.ofNat 4 p.2.toNat) on

/-- What `SET` (`on` true) and `CLEAR` (`on` false) do (42_display.md R150 to R152): a missing count or pair byte is
`ArgsOutOfRange` before any event; if every coordinate is 0 to 3 one event is sent per pair, in order, the listed pixels
and no others change, and `pc` moves past the instruction; else the events of the pairs before the first bad one are
sent and the machine halts with `BadCoord`, `pc` at the instruction. -/
def DrawsPairs (on : Bool) (pairs : List (Byte × Byte)) (s : State) (o : Host.Outcome State Fault Refusal) : Prop :=
  if s.memBytes ≤ s.pc.toNat + (1 + 2 * pairs.length) then s.ErrorHalt .argsOutOfRange o
  else if pairs.all pairInRange = true then
    ∃ t, o = .next t ∧ s.Sent t (pairs.map (pairEvent on)) ∧
      (∀ x y : Fin Config.displaySize, t.display.pixel x y =
        if pairs.any (fun p => p.1.toNat == x.val && p.2.toNat == y.val) = true then on else s.display.pixel x y) ∧
      t.pc.toNat = s.pc.toNat + (2 + 2 * pairs.length) ∧
      s.SameMemory t ∧ t.scratch = s.scratch ∧ s.SameControl t ∧ t.store = s.store
  else
    ∃ t, o = .next t ∧ s.Sent t ((pairs.takeWhile pairInRange).map (pairEvent on)) ∧
      t.running = false ∧ t.error = .badCoord ∧ t.pc = s.pc ∧
      s.SameMemory t ∧ t.scratch = s.scratch ∧ s.SameFixed t ∧ s.SameDelays t ∧ t.store = s.store

/-- What a memory instruction with `k` operand bytes does (43_memory_alu.md R169): operand bytes missing is
`ArgsOutOfRange`, an address outside memory `BadMemAddr`; else `mem[dst]` becomes `v`, `pc` moves past the instruction,
and nothing else changes. -/
def StoresByte (k : Nat) (addrs : List Byte) (dst v : Byte) (s : State) (o : Host.Outcome State Fault Refusal) : Prop :=
  if s.memBytes ≤ s.pc.toNat + k then s.ErrorHalt .argsOutOfRange o
  else if (addrs.any fun a => decide (s.memBytes ≤ a.toNat)) = true then s.ErrorHalt .badMemAddr o
  else
    ∃ t, o = .next t ∧ s.MemoryButOne t dst.toNat v ∧ t.pc.toNat = s.pc.toNat + (k + 1) ∧
      t.scratch = s.scratch ∧ s.SameControl t ∧ s.SamePorts t

/-- The instructions that write memory (20_memory.md R53). -/
def writesMemory : Instr → Bool
  | .store _ _ | .add _ _ _ | .sub _ _ _ | .and _ _ _ | .or _ _ _ | .xor _ _ _ | .not _ _ | .shl _ _ | .shr _ _
  | .scratchLoad _ _ => true
  | .halt | .set _ | .clear _ | .wait _ | .loop | .load _ | .jump _ | .jumpif _ _ | .setall | .setnone
  | .scratchStore _ _ | .scratchAdd _ _ _ | .scratchCopy _ _ | .scratchJumpif _ _ => false

/-- The instructions that write scratch, which are those that save it (10_state.md R22, 44_scratch.md R184). -/
def writesScratch : Instr → Bool
  | .scratchStore _ _ | .scratchAdd _ _ _ | .scratchCopy _ _ => true
  | .store _ _ | .add _ _ _ | .sub _ _ _ | .and _ _ _ | .or _ _ _ | .xor _ _ _ | .not _ _ | .shl _ _ | .shr _ _
  | .scratchLoad _ _ | .halt | .set _ | .clear _ | .wait _ | .loop | .load _ | .jump _ | .jumpif _ _ | .setall
  | .setnone | .scratchJumpif _ _ => false

/-- The instructions that send events to the display port (20_memory.md R53). -/
def writesPixels : Instr → Bool
  | .set _ | .clear _ | .load _ | .setall | .setnone => true
  | .store _ _ | .add _ _ _ | .sub _ _ _ | .and _ _ _ | .or _ _ _ | .xor _ _ _ | .not _ _ | .shl _ _ | .shr _ _
  | .scratchLoad _ _ | .halt | .wait _ | .loop | .jump _ | .jumpif _ _ | .scratchStore _ _ | .scratchAdd _ _ _
  | .scratchCopy _ _ | .scratchJumpif _ _ => false

/-- The instructions with at least one operand byte, which can lack it (60_exceptions.md R232, first column). -/
def mayLackOperands : Instr → Bool
  | .halt | .loop | .setall | .setnone => false
  | .set _ | .clear _ | .wait _ | .store _ _ | .load _ | .jump _ | .jumpif _ _ | .add _ _ _ | .scratchStore _ _
  | .scratchLoad _ _ | .scratchAdd _ _ _ | .scratchCopy _ _ | .scratchJumpif _ _ | .and _ _ _ | .or _ _ _ | .xor _ _ _
  | .not _ _ | .sub _ _ _ | .shl _ _ | .shr _ _ => true

/-- The instructions with an operand of kind M (R232, second column). -/
def hasMemOperand : Instr → Bool
  | .load _ | .store _ _ | .jumpif _ _ | .add _ _ _ | .sub _ _ _ | .and _ _ _ | .or _ _ _ | .xor _ _ _ | .not _ _
  | .shl _ _ | .shr _ _ | .scratchLoad _ _ | .scratchCopy _ _ => true
  | .halt | .loop | .setall | .setnone | .wait _ | .jump _ | .set _ | .clear _ | .scratchStore _ _ | .scratchAdd _ _ _
  | .scratchJumpif _ _ => false

/-- The instructions with an operand of kind S (R232, third column). -/
def hasScratchOperand : Instr → Bool
  | .scratchStore _ _ | .scratchLoad _ _ | .scratchAdd _ _ _ | .scratchCopy _ _ | .scratchJumpif _ _ => true
  | .halt | .loop | .setall | .setnone | .wait _ | .jump _ | .set _ | .clear _ | .load _ | .store _ _ | .jumpif _ _
  | .add _ _ _ | .sub _ _ _ | .and _ _ _ | .or _ _ _ | .xor _ _ _ | .not _ _ | .shl _ _ | .shr _ _ => false

/-- The instructions with operands of kind C (R232, fourth column). -/
def hasCoordOperand : Instr → Bool
  | .set _ | .clear _ => true
  | .halt | .loop | .setall | .setnone | .wait _ | .jump _ | .load _ | .store _ _ | .jumpif _ _ | .add _ _ _
  | .sub _ _ _ | .and _ _ _ | .or _ _ _ | .xor _ _ _ | .not _ _ | .shl _ _ | .shr _ _ | .scratchStore _ _
  | .scratchLoad _ _ | .scratchAdd _ _ _ | .scratchCopy _ _ | .scratchJumpif _ _ => false

/-- The 232 byte values that are no opcode (30_encoding.md R87). -/
abbrev illegalByte (b : Byte) : Prop :=
  (0x0A ≤ b.toNat ∧ b.toNat ≤ 0x0F) ∨ (0x1A ≤ b.toNat ∧ b.toNat ≤ 0x1F) ∨ 0x24 ≤ b.toNat

end Sys2Proof.Machine
end

