-- ==== Sys2Proof/Certificates/Slice0/Obligations.lean ====
section
/-! DEFINITION. The statements for the provers. Each formalises the rules of spec/ its docstring names; the ones that
rest on a decision of the spec or on a choice of the model say so. -/

open Sys2Proof Sys2Proof.Machine

/-! ## Encoding -/

/-- A few words written out from 30_encoding.md R86 decode to their instructions. -/
def Obligations.DecodeReadsTheSpecsWords : Prop :=
  decode [0x00] = .ok (.halt, []) ∧
  decode [0x01, 2, 0, 0, 1, 1] = .ok (.set [(0, 0), (1, 1)], []) ∧
  decode [0x05, 0x0A, 0xFF] = .ok (.store 10 255, []) ∧
  decode [0x12, 2, 0x64] = .ok (.scratchStore 2 100, []) ∧
  decode [0x21, 0x28, 0x29, 0x28] = .ok (.sub 40 41 40, []) ∧
  decode [0x0A] = .error (.unknownOpcode 0x0A)

/-- Decode and encode agree: for every well-formed instruction, with any bytes behind it (30_encoding.md R80, R81). -/
def Obligations.DecodeOfEncodeIsTheInstruction : Prop :=
  ∀ (i : Instr) (rest : List Byte), i.WellFormed → decode (encode i ++ rest) = .ok (i, rest)

/-- Each list of bytes has one meaning: what decodes is well-formed and its encoding is the bytes read (R80, R81, R89). -/
def Obligations.DecodedBytesAreTheEncoding : Prop :=
  ∀ (bytes rest : List Byte) (i : Instr), decode bytes = .ok (i, rest) → i.WellFormed ∧ bytes = encode i ++ rest

/-- 30_encoding.md R87 with 40_step_cycle.md R125: the decoder rejects exactly the 232 values as opcodes, and executing
one raises `UnknownOpcode` with `pc` left at it and nothing else changed. -/
def Obligations.IllegalBytesRaiseUnknownOpcode : Prop :=
  (∀ (b : Byte) (rest : List Byte), decode (b :: rest) = .error (.unknownOpcode b) ↔ illegalByte b) ∧
  (∀ s : State, s.Dispatching → illegalByte (s.memory.read s.pc.toNat) →
    s.ErrorHalt .unknownOpcode (step s))

/-- Whatever statement the assembler emits, its bytes are one well-formed instruction of the named row: the hardware
decodes what the toolchain encodes (30_encoding.md R99, R100). -/
def Obligations.AssembledStatementDecodesToItsRow : Prop :=
  ∀ (size : MemSize) (op : Opcode) (text : List Char) (bytes : List Byte),
    assembleStatement size op text = .ok bytes → bytes.length ≤ 256 →
    ∃ i, decode bytes = .ok (i, []) ∧ i.opcode = op ∧ i.WellFormed

/-! ## The step engine -/

/-- A step of a dispatching machine runs the instruction the decoder reads at `pc` (40_step_cycle.md R120, R124); step
adds nothing around exec. -/
def Obligations.StepRunsTheDecodedInstruction : Prop :=
  ∀ (s : State) (i : Instr) (rest : List Byte), s.Dispatching → decode s.fetchBytes = .ok (i, rest) → step s = exec i s

/-- When the bytes of memory at `pc` are the encoding of an instruction, the step is exec of it (R120, R124). -/
def Obligations.StepRunsTheInstructionInMemory : Prop :=
  ∀ (s : State) (i : Instr), s.Dispatching → i.WellFormed →
    s.pc.toNat + (encode i).length ≤ s.memBytes →
    s.memory.bytes s.pc.toNat (encode i).length = encode i →
    step s = exec i s

/-- An instruction cut off by the end of memory raises `ArgsOutOfRange` and nothing else happens (40_step_cycle.md
R126). That `SET` and `CLEAR` check all pair bytes before any event is the spec's decision D14 (log 17). -/
def Obligations.TruncatedInstructionRaisesArgsOutOfRange : Prop :=
  ∀ s : State, s.Dispatching → decode s.memoryFromPc = .error .truncated → s.ErrorHalt .argsOutOfRange (step s)

/-- "no read ever goes beyond the end of memory" (R126): the placeholders the model's fetch puts behind the last byte of
memory (log 9) have no effect, for any other bytes in their place the step is the same. -/
def Obligations.BytesBeyondMemoryHaveNoEffect : Prop :=
  ∀ (s : State) (beyond : List Byte), s.Dispatching → 511 ≤ beyond.length →
    match decode (s.memoryFromPc ++ beyond) with
    | .ok (i, _) => step s = exec i s
    | .error _ => s.ErrorHalt .unknownOpcode (step s)

/-- The halted gate (R121). That a step of a halted machine does nothing is the spec's own decision D3 (log 13). -/
def Obligations.HaltedStepDoesNothing : Prop :=
  ∀ s : State, s.running = false → step s = .next s

/-- A halt is final: any number of steps leaves a halted machine as it is (60_exceptions.md R236; decision D3, log 13). -/
def Obligations.HaltIsFinal : Prop :=
  ∀ (k : Nat) (s : State), s.running = false → core.run k s = .next s

/-- One wait tick (R122): the count goes down by one, `delayTotal` is cleared when it reaches 0, nothing else changes,
no memory is read (the tick is the same whatever memory holds); it comes before the `pc` range check, so a bad `pc`
raises its error in the first step after the wait. -/
def Obligations.WaitTickCountsDown : Prop :=
  ∀ s : State, s.running = true → s.delayRemaining ≠ 0 →
    ∃ t, step s = .next t ∧ t.delayRemaining.toNat + 1 = s.delayRemaining.toNat ∧
      (if t.delayRemaining = 0 then t.delayTotal = 0 else t.delayTotal = s.delayTotal) ∧
      t.pc = s.pc ∧ s.SameMemory t ∧ t.scratch = s.scratch ∧ s.SameFixed t ∧ s.SameRun t ∧ s.SamePorts t ∧
      (∀ m : Memory, step { s with memory := m } = .next { t with memory := m }) ∧
      (t.delayRemaining = 0 → s.memBytes ≤ s.pc.toNat → t.ErrorHalt .pcOutOfRange (step t))

/-- A program counter beyond memory halts the machine with `PcOutOfRange`, whatever memory holds, `pc` kept, and
nothing else raises that error (R123). -/
def Obligations.PcBeyondMemoryRaisesPcOutOfRange : Prop :=
  (∀ s : State, s.running = true → s.delayRemaining = 0 → s.memBytes ≤ s.pc.toNat →
    s.ErrorHalt .pcOutOfRange (step s)) ∧
  (∀ s t : State, s.error ≠ .pcOutOfRange → step s = .next t → t.error = .pcOutOfRange → s.memBytes ≤ s.pc.toNat)

/-- A step never faults and never refuses: every state has a next one (60_exceptions.md R230 to R234; log 8). -/
def Obligations.StepAlwaysAnswersANextState : Prop :=
  (∀ s : State, ∃ t, step s = .next t) ∧ (∀ (i : Instr) (s : State), ∃ t, exec i s = .next t)

/-- A store is seen by the very next fetch (20_memory.md R61): a `STORE` that writes the byte right behind itself makes
the next step dispatch on that byte, and if it is no opcode the machine halts there with `UnknownOpcode`. -/
def Obligations.NextFetchSeesTheStoredByte : Prop :=
  ∀ (s : State) (a v : Byte), s.Dispatching → s.pc.toNat + 3 < s.memBytes → a.toNat = s.pc.toNat + 3 →
    s.memory.bytes s.pc.toNat 3 = [0x05, a, v] →
    ∃ t, step s = .next t ∧ t.Dispatching ∧ t.memoryFromPc.head? = some v ∧
      (illegalByte v → t.ErrorHalt .unknownOpcode (step t))

/-! ## Control instructions -/

/-- `HALT` (41_control.md R140). That `pc` stays at the instruction is the spec's decision D10 (log 14). -/
def Obligations.HaltStopsCleanly : Prop :=
  encode .halt = [0x00] ∧
  ∀ s : State, ∃ t, exec .halt s = .next t ∧ t.running = false ∧ t.error = s.error ∧ t.pc = s.pc ∧
    s.SameMemory t ∧ t.scratch = s.scratch ∧ s.SameFixed t ∧ s.SameDelays t ∧ s.SamePorts t

/-- `WAIT n` (41_control.md R141). -/
def Obligations.WaitLoadsBothCounters : Prop :=
  ∀ (n : Byte), encode (.wait n) = [0x03, n] ∧ ∀ s : State,
    if s.memBytes ≤ s.pc.toNat + 1 then s.ErrorHalt .argsOutOfRange (exec (.wait n) s)
    else ∃ t, exec (.wait n) s = .next t ∧ t.delayRemaining = n ∧ t.delayTotal = n ∧ t.pc.toNat = s.pc.toNat + 2 ∧
      s.SameMemory t ∧ t.scratch = s.scratch ∧ s.SameFixed t ∧ s.SameRun t ∧ s.SamePorts t

/-- `WAIT n` suspends dispatch for exactly n steps (R141, R122): from the step that dispatches it, k further steps (k up
to n) have consumed k ticks and moved nothing else; at k = n the machine is ready to dispatch the next instruction. -/
def Obligations.WaitSuspendsDispatchForExactlyNSteps : Prop :=
  ∀ (s : State) (n : Byte) (k : Nat), s.Dispatching → s.pc.toNat + 1 < s.memBytes →
    s.memory.bytes s.pc.toNat 2 = [0x03, n] → k ≤ n.toNat →
    ∃ t, core.run (k + 1) s = .next t ∧ t.pc.toNat = s.pc.toNat + 2 ∧
      t.delayRemaining.toNat = n.toNat - k ∧ (t.delayTotal = if k = n.toNat then 0 else n) ∧
      s.SameMemory t ∧ t.scratch = s.scratch ∧ s.SameFixed t ∧ s.SameRun t ∧ s.SamePorts t

/-- `LOOP` (R142), with the spin of an entry point that is itself a `LOOP`; its target is always inside memory. -/
def Obligations.LoopReturnsToTheEntryPoint : Prop :=
  encode .loop = [0x04] ∧
  ∀ s : State, ∃ t, exec .loop s = .next t ∧ t.pc.toNat = s.entryPoint.toNat ∧
    s.SameMemory t ∧ t.scratch = s.scratch ∧ s.SameControl t ∧ s.SamePorts t ∧
    (s.pc.toNat = s.entryPoint.toNat → t = s) ∧ (s.Inv → t.pc.toNat < t.memBytes)

/-- `JUMP addr` (R143): the target is not compared with `MEM_SIZE` (R146, the spec's decision D11, log 15); a bad one
makes the next step raise `PcOutOfRange` at it; a jump to its own address spins. -/
def Obligations.JumpGoesToItsTarget : Prop :=
  ∀ (addr : Byte), encode (.jump addr) = [0x07, addr] ∧ ∀ s : State,
    if s.memBytes ≤ s.pc.toNat + 1 then s.ErrorHalt .argsOutOfRange (exec (.jump addr) s)
    else ∃ t, exec (.jump addr) s = .next t ∧ t.pc.toNat = addr.toNat ∧
      s.SameMemory t ∧ t.scratch = s.scratch ∧ s.SameControl t ∧ s.SamePorts t ∧
      (addr.toNat = s.pc.toNat → t = s) ∧
      (s.running = true → s.delayRemaining = 0 → s.memBytes ≤ addr.toNat → t.ErrorHalt .pcOutOfRange (step t))

/-- `JUMPIF addr testAddr` (R144). That the target is not checked is the spec's decision D11 (log 15). -/
def Obligations.JumpifTestsAMemoryByte : Prop :=
  ∀ (addr testAddr : Byte), encode (.jumpif addr testAddr) = [0x08, addr, testAddr] ∧ ∀ s : State,
    if s.memBytes ≤ s.pc.toNat + 2 then s.ErrorHalt .argsOutOfRange (exec (.jumpif addr testAddr) s)
    else if s.memBytes ≤ testAddr.toNat then s.ErrorHalt .badMemAddr (exec (.jumpif addr testAddr) s)
    else ∃ t, exec (.jumpif addr testAddr) s = .next t ∧
      (t.pc.toNat = if 0 < (s.memory.read testAddr.toNat).toNat then addr.toNat else s.pc.toNat + 3) ∧
      s.SameMemory t ∧ t.scratch = s.scratch ∧ s.SameControl t ∧ s.SamePorts t

/-- `SCRATCH_JUMPIF addr s` (R145): it reads scratch and saves nothing. That the target is not checked is the spec's
decision D11 (log 15). -/
def Obligations.ScratchJumpifTestsAScratchRegister : Prop :=
  ∀ (addr x : Byte), encode (.scratchJumpif addr x) = [0x16, addr, x] ∧ ∀ s : State,
    if s.memBytes ≤ s.pc.toNat + 2 then s.ErrorHalt .argsOutOfRange (exec (.scratchJumpif addr x) s)
    else if h : x.toNat < 8 then
      ∃ t, exec (.scratchJumpif addr x) s = .next t ∧
        (t.pc.toNat = if 0 < (s.scratch.get ⟨x.toNat, h⟩).toNat then addr.toNat else s.pc.toNat + 3) ∧
        s.SameMemory t ∧ t.scratch = s.scratch ∧ s.SameControl t ∧ s.SamePorts t
    else s.ErrorHalt .badScratchAddr (exec (.scratchJumpif addr x) s)

/-- A branch to an address beyond memory completes, and the next step halts with `PcOutOfRange` at the bad target
(R146). That the branch does not check its target is the spec's decision D11 (log 15). -/
def Obligations.WildJumpIsCaughtByTheNextStep : Prop :=
  ∀ (s : State) (a : Byte), s.Dispatching → s.pc.toNat + 1 < s.memBytes →
    s.memory.bytes s.pc.toNat 2 = [0x07, a] → s.memBytes ≤ a.toNat →
    ∃ t, step s = .next t ∧ t.running = true ∧ t.pc.toNat = a.toNat ∧ t.ErrorHalt .pcOutOfRange (step t)

/-! ## Display instructions -/

/-- `SET` and `CLEAR` (42_display.md R150, R151, R152). That all pair bytes are range-checked before the first event and
both coordinates before a pair's event is the spec's decision D14 (log 17). -/
def Obligations.SetAndClearDrawTheirPairs : Prop :=
  ∀ (pairs : List (Byte × Byte)),
    encode (.set pairs) = 0x01 :: BitVec.ofNat 8 pairs.length :: pairs.flatMap (fun p => [p.1, p.2]) ∧
    encode (.clear pairs) = 0x02 :: BitVec.ofNat 8 pairs.length :: pairs.flatMap (fun p => [p.1, p.2]) ∧
    ∀ s : State, DrawsPairs true pairs s (exec (.set pairs) s) ∧ DrawsPairs false pairs s (exec (.clear pairs) s)

/-- `LOAD addr` (R153): one event in both cases, and nothing is loaded anywhere. -/
def Obligations.LoadShowsAMemoryByteOnPixelZero : Prop :=
  ∀ (addr : Byte), encode (.load addr) = [0x06, addr] ∧ ∀ s : State,
    if s.memBytes ≤ s.pc.toNat + 1 then s.ErrorHalt .argsOutOfRange (exec (.load addr) s)
    else if s.memBytes ≤ addr.toNat then s.ErrorHalt .badMemAddr (exec (.load addr) s)
    else ∃ t, exec (.load addr) s = .next t ∧
      s.Sent t [.setPixel 0 0 (decide (0 < (s.memory.read addr.toNat).toNat))] ∧
      (∀ x y : Fin Config.displaySize, t.display.pixel x y =
        if x = 0 ∧ y = 0 then decide (0 < (s.memory.read addr.toNat).toNat) else s.display.pixel x y) ∧
      t.pc.toNat = s.pc.toNat + 2 ∧
      s.SameMemory t ∧ t.scratch = s.scratch ∧ s.SameControl t ∧ t.store = s.store

/-- `SETALL` (R154): 16 `setPixel` events that turn every pixel on. Their order is the spec's decision D15 (log 18) and
is not stated. -/
def Obligations.SetallTurnsEveryPixelOn : Prop :=
  encode .setall = [0x10] ∧
  ∀ s : State, s.pc.toNat < s.memBytes → ∃ t events, exec .setall s = .next t ∧ s.Sent t events ∧
    events.length = 16 ∧ (∀ x y : Fin Config.displaySize, Event.setPixel x y true ∈ events) ∧
    (∀ x y : Fin Config.displaySize, t.display.pixel x y = true) ∧ t.pc.toNat = s.pc.toNat + 1 ∧
    s.SameMemory t ∧ t.scratch = s.scratch ∧ s.SameControl t ∧ t.store = s.store

/-- `SETNONE` (R155). That it is one `clearAll` is the spec's decision D15 (log 18). -/
def Obligations.SetnoneTurnsEveryPixelOff : Prop :=
  encode .setnone = [0x11] ∧
  ∀ s : State, s.pc.toNat < s.memBytes → ∃ t, exec .setnone s = .next t ∧ s.Sent t [.clearAll] ∧
    (∀ x y : Fin Config.displaySize, t.display.pixel x y = false) ∧ t.pc.toNat = s.pc.toNat + 1 ∧
    s.SameMemory t ∧ t.scratch = s.scratch ∧ s.SameControl t ∧ t.store = s.store

/-! ## Memory and arithmetic instructions -/

/-- `STORE addr value` (43_memory_alu.md R160). -/
def Obligations.StoreWritesItsValue : Prop :=
  ∀ (addr value : Byte), encode (.store addr value) = [0x05, addr, value] ∧
    ∀ s : State, StoresByte 2 [addr] addr value s (exec (.store addr value) s)

/-- `ADD` and `SUB` (R161, R162): sums and differences modulo 256, both sources read before the write. -/
def Obligations.AddAndSubWrapModulo256 : Prop :=
  ∀ (a b dst : Byte), encode (.add a b dst) = [0x09, a, b, dst] ∧ encode (.sub a b dst) = [0x21, a, b, dst] ∧
    ∀ (s : State) (va vb : Nat), va = (s.memory.read a.toNat).toNat → vb = (s.memory.read b.toNat).toNat →
      (∃ v, v.toNat = (va + vb) % 256 ∧ StoresByte 3 [a, b, dst] dst v s (exec (.add a b dst) s)) ∧
      (∃ v, v.toNat = (va + 256 - vb) % 256 ∧ StoresByte 3 [a, b, dst] dst v s (exec (.sub a b dst) s))

/-- `AND`, `OR`, `XOR` (R163 to R165): bit by bit. The truth tables and the destination are not the source's own words
(93_implementation_defined.md part 3; log 25). -/
def Obligations.AndOrXorWorkBitByBit : Prop :=
  ∀ (a b dst : Byte), encode (.and a b dst) = [0x17, a, b, dst] ∧ encode (.or a b dst) = [0x18, a, b, dst] ∧
    encode (.xor a b dst) = [0x19, a, b, dst] ∧
    ∀ (s : State) (va vb : Byte), va = s.memory.read a.toNat → vb = s.memory.read b.toNat →
      (∃ v : Byte, (∀ k < 8, v.getLsbD k = (va.getLsbD k && vb.getLsbD k)) ∧
        StoresByte 3 [a, b, dst] dst v s (exec (.and a b dst) s)) ∧
      (∃ v : Byte, (∀ k < 8, v.getLsbD k = (va.getLsbD k || vb.getLsbD k)) ∧
        StoresByte 3 [a, b, dst] dst v s (exec (.or a b dst) s)) ∧
      (∃ v : Byte, (∀ k < 8, v.getLsbD k = (va.getLsbD k != vb.getLsbD k)) ∧
        StoresByte 3 [a, b, dst] dst v s (exec (.xor a b dst) s))

/-- `SHL a dst` (R167): twice the value modulo 256; bit 7 is lost, 0 enters at bit 0. -/
def Obligations.ShlDoublesModulo256 : Prop :=
  ∀ (a dst : Byte), encode (.shl a dst) = [0x22, a, dst] ∧
    ∀ (s : State) (va : Byte), va = s.memory.read a.toNat →
      ∃ v : Byte, v.toNat = (va.toNat * 2) % 256 ∧ v.getLsbD 0 = false ∧ (∀ k < 7, v.getLsbD (k + 1) = va.getLsbD k) ∧
        StoresByte 2 [a, dst] dst v s (exec (.shl a dst) s)

/-- `NOT` and `SHR` (R166, R168). Both rules derive the bits from the source's examples: every bit inverted, and a 0
entering at bit 7. -/
def Obligations.NotInvertsAndShrHalves : Prop :=
  ∀ (a dst : Byte), encode (.not a dst) = [0x20, a, dst] ∧ encode (.shr a dst) = [0x23, a, dst] ∧
    ∀ (s : State) (va : Byte), va = s.memory.read a.toNat →
      (∃ v : Byte, v.toNat = 255 - va.toNat ∧ (∀ k < 8, v.getLsbD k = !va.getLsbD k) ∧
        StoresByte 2 [a, dst] dst v s (exec (.not a dst) s)) ∧
      (∃ v : Byte, v.toNat = va.toNat / 2 ∧ v.getLsbD 7 = false ∧ (∀ k < 7, v.getLsbD k = va.getLsbD (k + 1)) ∧
        StoresByte 2 [a, dst] dst v s (exec (.shr a dst) s))

/-! ## Scratch instructions -/

/-- `SCRATCH_STORE s value` (44_scratch.md R180). That one save follows every success is the spec's decision D17 (log
27). -/
def Obligations.ScratchStoreWritesAndSaves : Prop :=
  ∀ (x value : Byte), encode (.scratchStore x value) = [0x12, x, value] ∧ ∀ s : State,
    if s.memBytes ≤ s.pc.toNat + 2 then s.ErrorHalt .argsOutOfRange (exec (.scratchStore x value) s)
    else if 8 ≤ x.toNat then s.ErrorHalt .badScratchAddr (exec (.scratchStore x value) s)
    else ∃ t, exec (.scratchStore x value) s = .next t ∧ s.ScratchButOne t x.toNat value ∧ s.SavedOnce t ∧
      t.pc.toNat = s.pc.toNat + 3 ∧ s.SameMemory t ∧ s.SameControl t

/-- `SCRATCH_LOAD s addr` (R181): scratch to memory; nothing is saved. That the scratch index is checked before the
address is the spec's decision D13 (log 26). -/
def Obligations.ScratchLoadCopiesToMemory : Prop :=
  ∀ (x addr : Byte), encode (.scratchLoad x addr) = [0x13, x, addr] ∧ ∀ s : State,
    if s.memBytes ≤ s.pc.toNat + 2 then s.ErrorHalt .argsOutOfRange (exec (.scratchLoad x addr) s)
    else if h : x.toNat < 8 then
      if s.memBytes ≤ addr.toNat then s.ErrorHalt .badMemAddr (exec (.scratchLoad x addr) s)
      else ∃ t, exec (.scratchLoad x addr) s = .next t ∧
        s.MemoryButOne t addr.toNat (s.scratch.get ⟨x.toNat, h⟩) ∧ t.pc.toNat = s.pc.toNat + 3 ∧
        t.scratch = s.scratch ∧ s.SameControl t ∧ s.SamePorts t
    else s.ErrorHalt .badScratchAddr (exec (.scratchLoad x addr) s)

/-- `SCRATCH_ADD s1 s2 dst` (R182); the save as in D17 (log 27). -/
def Obligations.ScratchAddWrapsAndSaves : Prop :=
  ∀ (x1 x2 dst : Byte), encode (.scratchAdd x1 x2 dst) = [0x14, x1, x2, dst] ∧ ∀ s : State,
    if s.memBytes ≤ s.pc.toNat + 3 then s.ErrorHalt .argsOutOfRange (exec (.scratchAdd x1 x2 dst) s)
    else if h : x1.toNat < 8 ∧ x2.toNat < 8 ∧ dst.toNat < 8 then
      ∃ t v, exec (.scratchAdd x1 x2 dst) s = .next t ∧
        v.toNat = ((s.scratch.get ⟨x1.toNat, h.1⟩).toNat + (s.scratch.get ⟨x2.toNat, h.2.1⟩).toNat) % 256 ∧
        s.ScratchButOne t dst.toNat v ∧ s.SavedOnce t ∧ t.pc.toNat = s.pc.toNat + 4 ∧ s.SameMemory t ∧ s.SameControl t
    else s.ErrorHalt .badScratchAddr (exec (.scratchAdd x1 x2 dst) s)

/-- `SCRATCH_COPY addr s` (R183): the memory address is checked first, by the spec's decision D13 (log 26);
the save as in D17 (log 27). -/
def Obligations.ScratchCopyReadsMemoryAndSaves : Prop :=
  ∀ (addr x : Byte), encode (.scratchCopy addr x) = [0x15, addr, x] ∧ ∀ s : State,
    if s.memBytes ≤ s.pc.toNat + 2 then s.ErrorHalt .argsOutOfRange (exec (.scratchCopy addr x) s)
    else if s.memBytes ≤ addr.toNat then s.ErrorHalt .badMemAddr (exec (.scratchCopy addr x) s)
    else if 8 ≤ x.toNat then s.ErrorHalt .badScratchAddr (exec (.scratchCopy addr x) s)
    else ∃ t, exec (.scratchCopy addr x) s = .next t ∧
      s.ScratchButOne t x.toNat (s.memory.read addr.toNat) ∧ s.SavedOnce t ∧ t.pc.toNat = s.pc.toNat + 3 ∧
      s.SameMemory t ∧ s.SameControl t

/-! ## The whole machine -/

/-- The invariants of 10_state.md R34, R26 and the canonical form of memory hold after every step of a machine in which
they hold. -/
def Obligations.EveryStepKeepsTheInvariants : Prop :=
  ∀ s t : State, s.Inv → step s = .next t → t.Inv

/-- The invariants hold after construction, for every size, image and display, and so at State.reset; the values after
construction other than scratch are the spec's decision D8 (log 16). -/
def Obligations.ConstructionMeetsTheInvariants : Prop :=
  State.reset.Inv ∧ ∀ (size : MemSize) (stored : Option Scratch) (display : Display),
    (State.construct size stored display).Inv

/-- Reset and Load keep or establish the invariants too, so every state a host can reach meets them (R34 b: "or by a
host operation that also clears both counters"). The values after a failed load are the spec's decision D22 (log 23). -/
def Obligations.HostOperationsKeepTheInvariants : Prop :=
  ∀ s : State, s.Inv →
    s.hostReset.Inv ∧
    (∀ image ep t, s.load image ep = some t → t.Inv) ∧
    (∀ image ep, image.length = s.memBytes → ep < s.memBytes → (s.loadFailed image ep).Inv)

/-- Errors are precise (60_exceptions.md R235, 40_step_cycle.md R130): a step that raises an error has had no effect on
memory, scratch, `pc`, the entry point, the delay counters or the durable store, and on the display only when the error
is `BadCoord`. That a truncated `SET` or `CLEAR` sends no event is the spec's decision D14 (log 17). -/
def Obligations.ErrorsArePrecise : Prop :=
  ∀ s t : State, s.error = .none → step s = .next t → t.error ≠ .none →
    t.running = false ∧ s.SameMemory t ∧ t.scratch = s.scratch ∧ t.pc = s.pc ∧ s.SameFixed t ∧ s.SameDelays t ∧
    t.store = s.store ∧ (t.error ≠ .badCoord → s.SamePorts t)

/-- Which instruction can change what (20_memory.md R53, 10_state.md R21, R22, R24): memory, scratch with its saves, and
the display change only by the instructions listed for them; no instruction changes the entry point or the size. -/
def Obligations.OnlyTheListedInstructionsWriteEachSpace : Prop :=
  ∀ (i : Instr) (s t : State), exec i s = .next t →
    (writesMemory i = false → s.SameMemory t) ∧
    (writesScratch i = false → t.scratch = s.scratch ∧ t.store = s.store) ∧
    (writesPixels i = false → t.display = s.display) ∧
    (writesScratch i = false → writesPixels i = false → t.trace = s.trace) ∧
    s.SameFixed t

/-- Which instruction can raise which error (60_exceptions.md R232): a machine without an error that ends a dispatched
instruction with one is at an instruction the table allows it for. -/
def Obligations.OnlyTheListedInstructionsRaiseEachError : Prop :=
  ∀ (i : Instr) (s t : State), s.error = .none → exec i s = .next t →
    match t.error with
    | .none => True
    | .argsOutOfRange => mayLackOperands i = true
    | .badMemAddr => hasMemOperand i = true
    | .badScratchAddr => hasScratchOperand i = true
    | .badCoord => hasCoordOperand i = true
    | .pcOutOfRange => False
    | .unknownOpcode => False
    | .asmError => False

/-- Nothing outside the machine flows back into it (42_display.md R156, 44_scratch.md R184, 60_exceptions.md R240): two
machines that differ only in the events sent so far, the display and the durable store, its free save outcomes
included, make the same step and send the same events. -/
def Obligations.NothingOutsideFlowsBack : Prop :=
  ∀ s s' t t' : State, s.SameMachine s' → step s = .next t → step s' = .next t' →
    t.SameMachine t' ∧ ∃ events, s.Sent t events ∧ s'.Sent t' events

/-- The display shows exactly the events sent (50_interfaces.md R208 to R211): every step appends events to the trace,
and each pixel is what those events make of it. -/
def Obligations.DisplayShowsTheEventsSent : Prop :=
  ∀ s t : State, step s = .next t → ∃ events, s.Sent t events ∧
    ∀ x y : Fin Config.displaySize, t.display.pixel x y = pixelAfter x y (s.display.pixel x y) events

/-- The durable image is the last whole image a save stored (50_interfaces.md R213, 20_memory.md R64). A step saves
nothing and leaves the store as it is, or makes one save of the scratch it ends with; over any number of steps the
image is the one of the last save that succeeded, or the old one when none did. Which saves succeed is a free value of
the model, indexed by its own counter of saves (log 6), and no other Machine writes the store meanwhile (log 24); that
every scratch write saves once is the spec's decision D17 (log 27). -/
def Obligations.DurableImageIsOneThatWasSaved : Prop :=
  (∀ s t : State, step s = .next t → ∃ events, s.Sent t events ∧
    ((savedImages events = [] ∧ t.store = s.store) ∨ savedImages events = [t.scratch])) ∧
  (∀ (k : Nat) (s t : State), core.run k s = .next t → ∃ events, s.Sent t events ∧
    t.store.saves = s.store.saves + (savedImages events).length ∧
    ((t.store.image = s.store.image ∧
        ∀ j < (savedImages events).length, Config.saveSucceeds (s.store.saves + j) = false) ∨
      (∃ j img, (savedImages events)[j]? = some img ∧ t.store.image = some img ∧
        Config.saveSucceeds (s.store.saves + j) = true ∧
        ∀ l < (savedImages events).length, j < l → Config.saveSucceeds (s.store.saves + l) = false)))

/-! ## Memory -/

/-- Two canonical memories that read alike are equal, so equal memories are equal data. -/
def Obligations.CanonicalMemoriesThatReadAlikeAreEqual : Prop :=
  ∀ m m' : Memory, m.wf = true → m'.wf = true → (∀ a, m.read a = m'.read a) → m = m'

/-! ## Host operations -/

/-- `Construct` (50_interfaces.md R201, R214): the four sizes and no other; every variable at its value. The values other
than scratch are the spec's decision D8 (log 16); State.reset is the construction with the default size and no image,
the model's choice (logs 1 to 3). -/
def Obligations.ConstructGivesTheIdleMachine : Prop :=
  (∀ (n : Nat) (stored : Option Scratch) (display : Display),
    if n = 32 ∨ n = 64 ∨ n = 128 ∨ n = 256 then
      ∃ t, construct n stored display = some t ∧ t.memBytes = n ∧ (∀ a, t.memory.read a = 0) ∧
        (∀ i : Fin Config.scratchSize, t.scratch.get i = match stored with | some img => img.get i | none => 0) ∧
        t.pc = 0 ∧ t.entryPoint = 0 ∧ t.delayRemaining = 0 ∧ t.delayTotal = 0 ∧ t.running = false ∧
        t.error = .none ∧ t.trace = [] ∧ t.display = display ∧ t.store.image = stored
    else construct n stored display = none) ∧
  construct 64 none Display.allOff = some State.reset

/-- `Reset` (R202): what it clears and what it keeps. That it keeps scratch and the entry point and clears the counters
are the spec's decisions D6 and D7 (log 19). -/
def Obligations.HostResetClearsAllButScratchAndEntryPoint : Prop :=
  ∀ s : State, (∀ a, s.hostReset.memory.read a = 0) ∧ s.hostReset.scratch = s.scratch ∧
    s.hostReset.pc.toNat = s.entryPoint.toNat ∧ s.SameFixed s.hostReset ∧
    s.hostReset.delayRemaining = 0 ∧ s.hostReset.delayTotal = 0 ∧
    s.hostReset.running = false ∧ s.hostReset.error = .none ∧ s.SamePorts s.hostReset

/-- `Load`, success and refusal (R203, U12), and the launch state (70_reset_and_hazards.md R271). That the load sets
`running` and clears the counters are the spec's decisions D4 and D5 (logs 13 and 19). -/
def Obligations.LoadMakesTheLaunchState : Prop :=
  ∀ (s : State) (image : List Byte) (ep : Nat),
    if image.length = s.memBytes ∧ ep < s.memBytes then
      ∃ t, s.load image ep = some t ∧ (∀ a, t.memory.read a = image.getD a 0) ∧ t.memSize = s.memSize ∧
        t.entryPoint.toNat = ep ∧ t.pc.toNat = ep ∧ t.delayRemaining = 0 ∧ t.delayTotal = 0 ∧
        t.running = true ∧ t.error = .none ∧ t.scratch = s.scratch ∧ s.SamePorts t
    else s.load image ep = none

/-- A program text the assembler accepts is always loaded: memory is its image, the entry point its entry point, and
the machine is ready to dispatch there. One it rejects leaves a machine that does not run, with what was written before
the failing line (30_encoding.md R104, R103; 50_interfaces.md R203, R204). That an accepted load sets `running` is the
spec's decision D4 (log 13), that it clears the counters D5 (log 19), and the values after a rejected one D22 (log
23). -/
def Obligations.AssembledProgramIsLoadedOrRejected : Prop :=
  ∀ (s : State) (text : List Char),
    (∀ a, assemble s.memSize text = .success a →
      ∃ t, s.loadProgram text = .loaded t ∧ t.running = true ∧ t.error = .none ∧ t.Dispatching ∧ t.delayTotal = 0 ∧
        t.pc.toNat = a.entryPoint ∧ t.entryPoint.toNat = a.entryPoint ∧ a.image.length = t.memBytes ∧
        (∀ b, t.memory.read b = a.image.getD b 0) ∧ t.memSize = s.memSize ∧ t.scratch = s.scratch ∧ s.SamePorts t) ∧
    (∀ a line kind, assemble s.memSize text = .failure a line kind →
      ∃ t, s.loadProgram text = .failed t line kind ∧ t.running = false ∧ t.error = .asmError ∧ t.pc = 0 ∧
        t.delayRemaining = 0 ∧ t.delayTotal = 0 ∧ t.entryPoint.toNat = a.entryPoint ∧
        (∀ b, t.memory.read b = a.image.getD b 0) ∧ t.memSize = s.memSize ∧ t.scratch = s.scratch ∧ s.SamePorts t)

/-- The numbers of the 3-bit error code register (60_exceptions.md R231; the numbering is the spec's decision D12, log
20), each number of one code. -/
def Obligations.ErrorCodesHaveTheirNumbers : Prop :=
  ErrorCode.none.code = 0 ∧ ErrorCode.asmError.code = 1 ∧ ErrorCode.pcOutOfRange.code = 2 ∧
  ErrorCode.argsOutOfRange.code = 3 ∧ ErrorCode.badMemAddr.code = 4 ∧ ErrorCode.badScratchAddr.code = 5 ∧
  ErrorCode.badCoord.code = 6 ∧ ErrorCode.unknownOpcode.code = 7 ∧
  ∀ e f : ErrorCode, e.code = f.code → e = f
end

