-- ==== Sys2Proof/Laws/Decode.lean ====
section
/-! SUPPORT. The laws of the opcode map and of coordinate pairs, which the decoder and the encoder are built from. -/

namespace Sys2Proof

/-- The opcode map is a map: a row's byte names that row. -/
@[simp] theorem Opcode.ofByte_byte (op : Opcode) : Opcode.ofByte op.byte = some op := by cases op <;> decide

/-- A byte that names a row is that row's byte. -/
theorem Opcode.byte_of_ofByte {b : Byte} {op : Opcode} (h : Opcode.ofByte b = some op) : op.byte = b := by
  simpa using List.find?_some h

theorem length_pairBytes (pairs : List (Byte × Byte)) : (pairBytes pairs).length = 2 * pairs.length := by
  induction pairs with
  | nil => rfl
  | cons p rest ih => rw [pairBytes, List.length_cons, List.length_cons, ih, List.length_cons]; omega

/-- Pairs laid out are read back, and the bytes behind them are left. -/
theorem takePairs_pairBytes (pairs : List (Byte × Byte)) (rest : List Byte) :
    takePairs pairs.length (pairBytes pairs ++ rest) = some (pairs, rest) := by
  induction pairs with
  | nil => rfl
  | cons p ps ih => simp [takePairs, pairBytes, ih]

/-- Everything `takePairs` can read: that many pairs, laid out, with the rest behind them. -/
theorem takePairs_some {n : Nat} {bytes rest : List Byte} {pairs : List (Byte × Byte)}
    (h : takePairs n bytes = some (pairs, rest)) : pairs.length = n ∧ bytes = pairBytes pairs ++ rest := by
  induction n, bytes using takePairs.induct generalizing pairs with
  | case1 bytes => simp only [takePairs, Option.some.injEq, Prod.mk.injEq] at h; simp [← h.1, h.2, pairBytes]
  | case2 n x y bytes ih =>
    simp only [takePairs, Option.map_eq_some_iff, Prod.mk.injEq] at h
    obtain ⟨⟨qs, r⟩, h1, rfl, rfl⟩ := h
    simp [pairBytes, (ih h1).1, ← (ih h1).2]
  | case3 => simp [takePairs] at h

/-- It fails only when the bytes run out. -/
theorem takePairs_none {n : Nat} {bytes : List Byte} (h : takePairs n bytes = none) : bytes.length < 2 * n := by
  induction n, bytes using takePairs.induct with
  | case1 bytes => simp [takePairs] at h
  | case2 n x y bytes ih =>
    have := ih (by simpa [takePairs] using h)
    simp only [List.length_cons]; omega
  | case3 n bytes hb =>
    rcases bytes with _ | ⟨x, _ | ⟨y, rest⟩⟩
    · simp
    · simp only [List.length_cons, List.length_nil]; omega
    · exact absurd rfl (hb x y rest)

end Sys2Proof
end

