-- ==== Sys2Proof/Laws/State.lean ====
section
/-! SUPPORT. One lemma per field per update of State, each true by rfl, so that no later proof unfolds an update. -/

namespace Sys2Proof.Machine.State

section -- raise
variable (s : State) (e : ErrorCode)
@[simp] theorem raise_memSize : (s.raise e).memSize = s.memSize := rfl
@[simp] theorem raise_memory : (s.raise e).memory = s.memory := rfl
@[simp] theorem raise_scratch : (s.raise e).scratch = s.scratch := rfl
@[simp] theorem raise_pc : (s.raise e).pc = s.pc := rfl
@[simp] theorem raise_entryPoint : (s.raise e).entryPoint = s.entryPoint := rfl
@[simp] theorem raise_delayRemaining : (s.raise e).delayRemaining = s.delayRemaining := rfl
@[simp] theorem raise_delayTotal : (s.raise e).delayTotal = s.delayTotal := rfl
@[simp] theorem raise_running : (s.raise e).running = false := rfl
@[simp] theorem raise_error : (s.raise e).error = e := rfl
@[simp] theorem raise_trace : (s.raise e).trace = s.trace := rfl
@[simp] theorem raise_display : (s.raise e).display = s.display := rfl
@[simp] theorem raise_store : (s.raise e).store = s.store := rfl
@[simp] theorem raise_memBytes : (s.raise e).memBytes = s.memBytes := rfl
end

section -- haltClean
variable (s : State)
@[simp] theorem haltClean_memSize : s.haltClean.memSize = s.memSize := rfl
@[simp] theorem haltClean_memory : s.haltClean.memory = s.memory := rfl
@[simp] theorem haltClean_scratch : s.haltClean.scratch = s.scratch := rfl
@[simp] theorem haltClean_pc : s.haltClean.pc = s.pc := rfl
@[simp] theorem haltClean_entryPoint : s.haltClean.entryPoint = s.entryPoint := rfl
@[simp] theorem haltClean_delayRemaining : s.haltClean.delayRemaining = s.delayRemaining := rfl
@[simp] theorem haltClean_delayTotal : s.haltClean.delayTotal = s.delayTotal := rfl
@[simp] theorem haltClean_running : s.haltClean.running = false := rfl
@[simp] theorem haltClean_error : s.haltClean.error = s.error := rfl
@[simp] theorem haltClean_trace : s.haltClean.trace = s.trace := rfl
@[simp] theorem haltClean_display : s.haltClean.display = s.display := rfl
@[simp] theorem haltClean_store : s.haltClean.store = s.store := rfl
@[simp] theorem haltClean_memBytes : s.haltClean.memBytes = s.memBytes := rfl
end

section -- startWait
variable (s : State) (n : Byte)
@[simp] theorem startWait_memSize : (s.startWait n).memSize = s.memSize := rfl
@[simp] theorem startWait_memory : (s.startWait n).memory = s.memory := rfl
@[simp] theorem startWait_scratch : (s.startWait n).scratch = s.scratch := rfl
@[simp] theorem startWait_pc : (s.startWait n).pc = s.pc := rfl
@[simp] theorem startWait_entryPoint : (s.startWait n).entryPoint = s.entryPoint := rfl
@[simp] theorem startWait_delayRemaining : (s.startWait n).delayRemaining = n := rfl
@[simp] theorem startWait_delayTotal : (s.startWait n).delayTotal = n := rfl
@[simp] theorem startWait_running : (s.startWait n).running = s.running := rfl
@[simp] theorem startWait_error : (s.startWait n).error = s.error := rfl
@[simp] theorem startWait_trace : (s.startWait n).trace = s.trace := rfl
@[simp] theorem startWait_display : (s.startWait n).display = s.display := rfl
@[simp] theorem startWait_store : (s.startWait n).store = s.store := rfl
@[simp] theorem startWait_memBytes : (s.startWait n).memBytes = s.memBytes := rfl
end

section -- waitTick
variable (s : State)
@[simp] theorem waitTick_memSize : s.waitTick.memSize = s.memSize := rfl
@[simp] theorem waitTick_memory : s.waitTick.memory = s.memory := rfl
@[simp] theorem waitTick_scratch : s.waitTick.scratch = s.scratch := rfl
@[simp] theorem waitTick_pc : s.waitTick.pc = s.pc := rfl
@[simp] theorem waitTick_entryPoint : s.waitTick.entryPoint = s.entryPoint := rfl
@[simp] theorem waitTick_delayRemaining : s.waitTick.delayRemaining = s.delayRemaining - 1 := rfl
@[simp] theorem waitTick_delayTotal : s.waitTick.delayTotal = if s.delayRemaining - 1 = 0 then 0 else s.delayTotal := rfl
@[simp] theorem waitTick_running : s.waitTick.running = s.running := rfl
@[simp] theorem waitTick_error : s.waitTick.error = s.error := rfl
@[simp] theorem waitTick_trace : s.waitTick.trace = s.trace := rfl
@[simp] theorem waitTick_display : s.waitTick.display = s.display := rfl
@[simp] theorem waitTick_store : s.waitTick.store = s.store := rfl
@[simp] theorem waitTick_memBytes : s.waitTick.memBytes = s.memBytes := rfl
end

section -- jumpTo
variable (s : State) (a : Byte)
@[simp] theorem jumpTo_memSize : (s.jumpTo a).memSize = s.memSize := rfl
@[simp] theorem jumpTo_memory : (s.jumpTo a).memory = s.memory := rfl
@[simp] theorem jumpTo_scratch : (s.jumpTo a).scratch = s.scratch := rfl
@[simp] theorem jumpTo_pc : (s.jumpTo a).pc = a.setWidth 9 := rfl
@[simp] theorem jumpTo_entryPoint : (s.jumpTo a).entryPoint = s.entryPoint := rfl
@[simp] theorem jumpTo_delayRemaining : (s.jumpTo a).delayRemaining = s.delayRemaining := rfl
@[simp] theorem jumpTo_delayTotal : (s.jumpTo a).delayTotal = s.delayTotal := rfl
@[simp] theorem jumpTo_running : (s.jumpTo a).running = s.running := rfl
@[simp] theorem jumpTo_error : (s.jumpTo a).error = s.error := rfl
@[simp] theorem jumpTo_trace : (s.jumpTo a).trace = s.trace := rfl
@[simp] theorem jumpTo_display : (s.jumpTo a).display = s.display := rfl
@[simp] theorem jumpTo_store : (s.jumpTo a).store = s.store := rfl
@[simp] theorem jumpTo_memBytes : (s.jumpTo a).memBytes = s.memBytes := rfl
end

section -- advance
variable (s : State) (n : Nat)
@[simp] theorem advance_memSize : (s.advance n).memSize = s.memSize := rfl
@[simp] theorem advance_memory : (s.advance n).memory = s.memory := rfl
@[simp] theorem advance_scratch : (s.advance n).scratch = s.scratch := rfl
@[simp] theorem advance_pc : (s.advance n).pc = BitVec.ofNat 9 (s.pc.toNat + n) := rfl
@[simp] theorem advance_entryPoint : (s.advance n).entryPoint = s.entryPoint := rfl
@[simp] theorem advance_delayRemaining : (s.advance n).delayRemaining = s.delayRemaining := rfl
@[simp] theorem advance_delayTotal : (s.advance n).delayTotal = s.delayTotal := rfl
@[simp] theorem advance_running : (s.advance n).running = s.running := rfl
@[simp] theorem advance_error : (s.advance n).error = s.error := rfl
@[simp] theorem advance_trace : (s.advance n).trace = s.trace := rfl
@[simp] theorem advance_display : (s.advance n).display = s.display := rfl
@[simp] theorem advance_store : (s.advance n).store = s.store := rfl
@[simp] theorem advance_memBytes : (s.advance n).memBytes = s.memBytes := rfl
end

section -- writeMem
variable (s : State) (a v : Byte)
@[simp] theorem writeMem_memSize : (s.writeMem a v).memSize = s.memSize := rfl
@[simp] theorem writeMem_memory : (s.writeMem a v).memory = s.memory.write a.toNat v := rfl
@[simp] theorem writeMem_scratch : (s.writeMem a v).scratch = s.scratch := rfl
@[simp] theorem writeMem_pc : (s.writeMem a v).pc = s.pc := rfl
@[simp] theorem writeMem_entryPoint : (s.writeMem a v).entryPoint = s.entryPoint := rfl
@[simp] theorem writeMem_delayRemaining : (s.writeMem a v).delayRemaining = s.delayRemaining := rfl
@[simp] theorem writeMem_delayTotal : (s.writeMem a v).delayTotal = s.delayTotal := rfl
@[simp] theorem writeMem_running : (s.writeMem a v).running = s.running := rfl
@[simp] theorem writeMem_error : (s.writeMem a v).error = s.error := rfl
@[simp] theorem writeMem_trace : (s.writeMem a v).trace = s.trace := rfl
@[simp] theorem writeMem_display : (s.writeMem a v).display = s.display := rfl
@[simp] theorem writeMem_store : (s.writeMem a v).store = s.store := rfl
@[simp] theorem writeMem_memBytes : (s.writeMem a v).memBytes = s.memBytes := rfl
end

section -- writeScratch
variable (s : State) (i v : Byte)
@[simp] theorem writeScratch_memSize : (s.writeScratch i v).memSize = s.memSize := rfl
@[simp] theorem writeScratch_memory : (s.writeScratch i v).memory = s.memory := rfl
@[simp] theorem writeScratch_scratch : (s.writeScratch i v).scratch = s.scratch.setIfInBounds i.toNat v := rfl
@[simp] theorem writeScratch_pc : (s.writeScratch i v).pc = s.pc := rfl
@[simp] theorem writeScratch_entryPoint : (s.writeScratch i v).entryPoint = s.entryPoint := rfl
@[simp] theorem writeScratch_delayRemaining : (s.writeScratch i v).delayRemaining = s.delayRemaining := rfl
@[simp] theorem writeScratch_delayTotal : (s.writeScratch i v).delayTotal = s.delayTotal := rfl
@[simp] theorem writeScratch_running : (s.writeScratch i v).running = s.running := rfl
@[simp] theorem writeScratch_error : (s.writeScratch i v).error = s.error := rfl
@[simp] theorem writeScratch_trace : (s.writeScratch i v).trace = s.trace := rfl
@[simp] theorem writeScratch_display : (s.writeScratch i v).display = s.display := rfl
@[simp] theorem writeScratch_store : (s.writeScratch i v).store = s.store := rfl
@[simp] theorem writeScratch_memBytes : (s.writeScratch i v).memBytes = s.memBytes := rfl
end

section -- emit
variable (s : State) (e : Event)
@[simp] theorem emit_memSize : (s.emit e).memSize = s.memSize := rfl
@[simp] theorem emit_memory : (s.emit e).memory = s.memory := rfl
@[simp] theorem emit_scratch : (s.emit e).scratch = s.scratch := rfl
@[simp] theorem emit_pc : (s.emit e).pc = s.pc := rfl
@[simp] theorem emit_entryPoint : (s.emit e).entryPoint = s.entryPoint := rfl
@[simp] theorem emit_delayRemaining : (s.emit e).delayRemaining = s.delayRemaining := rfl
@[simp] theorem emit_delayTotal : (s.emit e).delayTotal = s.delayTotal := rfl
@[simp] theorem emit_running : (s.emit e).running = s.running := rfl
@[simp] theorem emit_error : (s.emit e).error = s.error := rfl
@[simp] theorem emit_trace : (s.emit e).trace = s.trace ++ [e] := rfl
@[simp] theorem emit_display : (s.emit e).display = s.display.after e := rfl
@[simp] theorem emit_store : (s.emit e).store = s.store.after e := rfl
@[simp] theorem emit_memBytes : (s.emit e).memBytes = s.memBytes := rfl
end

section -- emitSave
variable (s : State)
@[simp] theorem emitSave_memSize : s.emitSave.memSize = s.memSize := rfl
@[simp] theorem emitSave_memory : s.emitSave.memory = s.memory := rfl
@[simp] theorem emitSave_scratch : s.emitSave.scratch = s.scratch := rfl
@[simp] theorem emitSave_pc : s.emitSave.pc = s.pc := rfl
@[simp] theorem emitSave_entryPoint : s.emitSave.entryPoint = s.entryPoint := rfl
@[simp] theorem emitSave_delayRemaining : s.emitSave.delayRemaining = s.delayRemaining := rfl
@[simp] theorem emitSave_delayTotal : s.emitSave.delayTotal = s.delayTotal := rfl
@[simp] theorem emitSave_running : s.emitSave.running = s.running := rfl
@[simp] theorem emitSave_error : s.emitSave.error = s.error := rfl
@[simp] theorem emitSave_trace : s.emitSave.trace = s.trace ++ [.save s.scratch] := rfl
@[simp] theorem emitSave_display : s.emitSave.display = s.display := rfl
@[simp] theorem emitSave_store : s.emitSave.store = s.store.after (.save s.scratch) := rfl
@[simp] theorem emitSave_memBytes : s.emitSave.memBytes = s.memBytes := rfl
end

section -- hostReset
variable (s : State)
@[simp] theorem hostReset_memSize : s.hostReset.memSize = s.memSize := rfl
@[simp] theorem hostReset_memory : s.hostReset.memory = Memory.zero := rfl
@[simp] theorem hostReset_scratch : s.hostReset.scratch = s.scratch := rfl
@[simp] theorem hostReset_pc : s.hostReset.pc = s.entryPoint.setWidth 9 := rfl
@[simp] theorem hostReset_entryPoint : s.hostReset.entryPoint = s.entryPoint := rfl
@[simp] theorem hostReset_delayRemaining : s.hostReset.delayRemaining = 0 := rfl
@[simp] theorem hostReset_delayTotal : s.hostReset.delayTotal = 0 := rfl
@[simp] theorem hostReset_running : s.hostReset.running = false := rfl
@[simp] theorem hostReset_error : s.hostReset.error = .none := rfl
@[simp] theorem hostReset_trace : s.hostReset.trace = s.trace := rfl
@[simp] theorem hostReset_display : s.hostReset.display = s.display := rfl
@[simp] theorem hostReset_store : s.hostReset.store = s.store := rfl
@[simp] theorem hostReset_memBytes : s.hostReset.memBytes = s.memBytes := rfl
end

section -- loadFailed
variable (s : State) (image : List Byte) (ep : Nat)
@[simp] theorem loadFailed_memSize : (s.loadFailed image ep).memSize = s.memSize := rfl
@[simp] theorem loadFailed_memory : (s.loadFailed image ep).memory = Memory.ofImage image := rfl
@[simp] theorem loadFailed_scratch : (s.loadFailed image ep).scratch = s.scratch := rfl
@[simp] theorem loadFailed_pc : (s.loadFailed image ep).pc = 0 := rfl
@[simp] theorem loadFailed_entryPoint : (s.loadFailed image ep).entryPoint = BitVec.ofNat 8 ep := rfl
@[simp] theorem loadFailed_delayRemaining : (s.loadFailed image ep).delayRemaining = 0 := rfl
@[simp] theorem loadFailed_delayTotal : (s.loadFailed image ep).delayTotal = 0 := rfl
@[simp] theorem loadFailed_running : (s.loadFailed image ep).running = false := rfl
@[simp] theorem loadFailed_error : (s.loadFailed image ep).error = .asmError := rfl
@[simp] theorem loadFailed_trace : (s.loadFailed image ep).trace = s.trace := rfl
@[simp] theorem loadFailed_display : (s.loadFailed image ep).display = s.display := rfl
@[simp] theorem loadFailed_store : (s.loadFailed image ep).store = s.store := rfl
@[simp] theorem loadFailed_memBytes : (s.loadFailed image ep).memBytes = s.memBytes := rfl
end

end Sys2Proof.Machine.State
end

