-- ==== Sys2Proof/Laws/Memory.lean ====
section
/-! SUPPORT. What the memory operations do: a byte written reads back, other bytes are untouched, and every operation
keeps the canonical form and the bound on the listed addresses. -/

namespace Sys2Proof.Machine

/-! ## Reading -/

theorem lookupCell_eraseCell_same (cells : List Host.Cell) (a : Nat) :
    lookupCell (eraseCell cells a) a = Memory.unlisted := by
  induction cells with
  | nil => rfl
  | cons c rest ih =>
    obtain ⟨k, w⟩ := c
    by_cases h : k = a <;> simp [eraseCell, lookupCell, h, ih]

theorem lookupCell_eraseCell_other (cells : List Host.Cell) {a b : Nat} (hb : b ≠ a) :
    lookupCell (eraseCell cells a) b = lookupCell cells b := by
  induction cells with
  | nil => rfl
  | cons c rest ih =>
    obtain ⟨k, w⟩ := c
    by_cases h : k = a
    · subst h; simp [eraseCell, lookupCell, ih, Ne.symm hb]
    · simp [eraseCell, lookupCell, h, ih]

theorem lookupCell_insertCell_same (cells : List Host.Cell) (a : Nat) (v : Byte)
    (h : lookupCell cells a = Memory.unlisted) (hv : ∀ w, (a, w) ∉ cells) :
    lookupCell (insertCell cells a v) a = v := by
  induction cells with
  | nil => simp [insertCell, lookupCell]
  | cons c rest ih =>
    obtain ⟨k, w⟩ := c
    have hk : k ≠ a := fun e => hv w (by simp [e])
    have hr : lookupCell rest a = Memory.unlisted := by simpa [lookupCell, hk] using h
    by_cases hlt : a < k
    · simp [insertCell, lookupCell, hlt]
    · simp [insertCell, lookupCell, hlt, hk, ih hr fun w hw => hv w (List.mem_cons_of_mem _ hw)]

theorem lookupCell_insertCell_other (cells : List Host.Cell) {a b : Nat} (v : Byte) (hb : b ≠ a) :
    lookupCell (insertCell cells a v) b = lookupCell cells b := by
  induction cells with
  | nil => simp [insertCell, lookupCell, Ne.symm hb]
  | cons c rest ih =>
    obtain ⟨k, w⟩ := c
    by_cases hlt : a < k
    · simp [insertCell, lookupCell, hlt, Ne.symm hb]
    · simp [insertCell, lookupCell, hlt, ih]

theorem not_mem_eraseCell (cells : List Host.Cell) (a : Nat) (w : Byte) : (a, w) ∉ eraseCell cells a := by
  induction cells with
  | nil => simp [eraseCell]
  | cons c rest ih =>
    obtain ⟨k, u⟩ := c
    by_cases h : k = a
    · simp [eraseCell, h, ih]
    · simp [eraseCell, h, ih, Ne.symm h]

/-- A byte written reads back. -/
@[simp] theorem Memory.read_write_same (m : Memory) (a : Nat) (v : Byte) : (m.write a v).read a = v := by
  unfold Memory.write Memory.read
  split
  · rename_i h; rw [h]; exact lookupCell_eraseCell_same _ _
  · exact lookupCell_insertCell_same _ _ _ (lookupCell_eraseCell_same _ _) (not_mem_eraseCell _ _)

/-- Every other byte reads as before. -/
theorem Memory.read_write_other (m : Memory) {a b : Nat} (v : Byte) (hb : b ≠ a) :
    (m.write a v).read b = m.read b := by
  unfold Memory.write Memory.read
  split
  · exact lookupCell_eraseCell_other _ hb
  · rw [lookupCell_insertCell_other _ _ hb]; exact lookupCell_eraseCell_other _ hb

/-- Both laws at once. -/
theorem Memory.read_write (m : Memory) (a b : Nat) (v : Byte) :
    (m.write a v).read b = if b = a then v else m.read b := by
  split
  · next h => subst h; simp
  · next h => exact m.read_write_other v h

@[simp] theorem Memory.read_zero (a : Nat) : Memory.zero.read a = 0 := rfl

theorem Memory.read_writeBytes (bytes : List Byte) (m : Memory) (a b : Nat) :
    (m.writeBytes a bytes).read b = if a ≤ b ∧ b < a + bytes.length then bytes.getD (b - a) 0 else m.read b := by
  induction bytes generalizing m a with
  | nil =>
    have : ¬(a ≤ b ∧ b < a + 0) := by omega
    simp [Memory.writeBytes]
  | cons v rest ih =>
    simp only [Memory.writeBytes, ih, Memory.read_write, List.length_cons]
    by_cases h : b = a
    · subst h; simp
    · by_cases h2 : a + 1 ≤ b ∧ b < a + 1 + rest.length
      · have e : b - a = (b - (a + 1)) + 1 := by omega
        rw [if_pos h2, if_pos (by omega), e]
        simp
      · rw [if_neg h2, if_neg h, if_neg (by omega)]

/-- A loaded image reads as itself, and as 0 beyond its end. -/
theorem Memory.read_ofImage (image : List Byte) (a : Nat) : (Memory.ofImage image).read a = image.getD a 0 := by
  unfold Memory.ofImage
  rw [Memory.read_writeBytes]
  split
  · simp
  · rw [Memory.read_zero, List.getD_eq_default]; omega

/-! ## Runs of bytes -/

@[simp] theorem Memory.length_bytes (m : Memory) (a n : Nat) : (m.bytes a n).length = n := by
  induction n generalizing a with
  | zero => rfl
  | succ n ih => simp [Memory.bytes, ih]

theorem Memory.bytes_add (m : Memory) (a n k : Nat) : m.bytes a (n + k) = m.bytes a n ++ m.bytes (a + n) k := by
  induction n generalizing a with
  | zero => simp [Memory.bytes]
  | succ n ih => simp [Memory.bytes, Nat.succ_add, ih, Nat.add_assoc]

theorem Memory.bytes_congr {m m' : Memory} (h : ∀ a, m.read a = m'.read a) (a n : Nat) :
    m.bytes a n = m'.bytes a n := by
  induction n generalizing a with
  | zero => rfl
  | succ n ih => simp [Memory.bytes, h, ih]

/-! ## The canonical form -/

theorem canonicalFrom_mono {low low' : Nat} {cells : List Host.Cell} (h : canonicalFrom low cells = true)
    (hl : low' ≤ low) : canonicalFrom low' cells = true := by
  cases cells with
  | nil => rfl
  | cons c rest =>
    obtain ⟨k, v⟩ := c
    simp only [canonicalFrom, Bool.and_eq_true, decide_eq_true_eq] at h ⊢
    exact ⟨⟨by omega, h.1.2⟩, h.2⟩

theorem canonicalFrom_eraseCell {low : Nat} {cells : List Host.Cell} (a : Nat) (h : canonicalFrom low cells = true) :
    canonicalFrom low (eraseCell cells a) = true := by
  induction cells generalizing low with
  | nil => rfl
  | cons c rest ih =>
    obtain ⟨k, v⟩ := c
    simp only [canonicalFrom, Bool.and_eq_true, decide_eq_true_eq] at h
    by_cases hk : k = a
    · simp only [eraseCell, hk, if_true]
      exact canonicalFrom_mono (ih h.2) (by omega)
    · simp only [eraseCell, hk, if_false, canonicalFrom, Bool.and_eq_true, decide_eq_true_eq]
      exact ⟨h.1, ih h.2⟩

theorem canonicalFrom_insertCell {low a : Nat} {v : Byte} {cells : List Host.Cell} (h : canonicalFrom low cells = true)
    (hlow : low ≤ a) (hv : v ≠ Memory.unlisted) (ha : ∀ w, (a, w) ∉ cells) :
    canonicalFrom low (insertCell cells a v) = true := by
  induction cells generalizing low with
  | nil => simp [insertCell, canonicalFrom, hlow, hv]
  | cons c rest ih =>
    obtain ⟨k, w⟩ := c
    have hk : k ≠ a := fun e => ha w (by simp [e])
    simp only [canonicalFrom, Bool.and_eq_true, decide_eq_true_eq] at h
    by_cases hlt : a < k
    · simp only [insertCell, hlt, if_true, canonicalFrom, Bool.and_eq_true, decide_eq_true_eq]
      exact ⟨⟨hlow, hv⟩, ⟨by omega, h.1.2⟩, h.2⟩
    · simp only [insertCell, hlt, if_false, canonicalFrom, Bool.and_eq_true, decide_eq_true_eq]
      exact ⟨h.1, ih h.2 (by omega) fun w hw => ha w (List.mem_cons_of_mem _ hw)⟩

/-- A write keeps the canonical form. -/
theorem Memory.wf_write {m : Memory} (a : Nat) (v : Byte) (h : m.wf = true) : (m.write a v).wf = true := by
  unfold Memory.write
  split
  · exact canonicalFrom_eraseCell a h
  · next hv => exact canonicalFrom_insertCell (canonicalFrom_eraseCell a h) (Nat.zero_le a) hv (not_mem_eraseCell _ _)

@[simp] theorem Memory.wf_zero : Memory.zero.wf = true := rfl

theorem Memory.wf_writeBytes {m : Memory} (bytes : List Byte) (a : Nat) (h : m.wf = true) :
    (m.writeBytes a bytes).wf = true := by
  induction bytes generalizing m a with
  | nil => exact h
  | cons v rest ih => exact ih (a + 1) (Memory.wf_write a v h)

theorem Memory.wf_ofImage (image : List Byte) : (Memory.ofImage image).wf = true :=
  Memory.wf_writeBytes image 0 Memory.wf_zero

/-- The memory after reset is in the canonical form. -/
theorem reset_memory_wf : State.reset.memory.wf = true := rfl

/-! ## The bound on the listed addresses -/

theorem mem_of_mem_eraseCell {cells : List Host.Cell} {a : Nat} {c : Host.Cell} (h : c ∈ eraseCell cells a) :
    c ∈ cells := by
  induction cells with
  | nil => simp [eraseCell] at h
  | cons d rest ih =>
    obtain ⟨k, w⟩ := d
    by_cases hk : k = a
    · simp only [eraseCell, hk, if_true] at h
      exact List.mem_cons_of_mem _ (ih h)
    · simp only [eraseCell, hk, if_false, List.mem_cons] at h ⊢
      exact h.imp id ih

theorem mem_insertCell {cells : List Host.Cell} {a : Nat} {v : Byte} {c : Host.Cell} (h : c ∈ insertCell cells a v) :
    c = (a, v) ∨ c ∈ cells := by
  induction cells with
  | nil => simpa [insertCell] using h
  | cons d rest ih =>
    obtain ⟨k, w⟩ := d
    by_cases hlt : a < k
    · simpa [insertCell, hlt] using h
    · simp only [insertCell, hlt, if_false, List.mem_cons] at h
      rcases h with h | h
      · exact .inr (by simp [h])
      · exact (ih h).imp id fun hm => List.mem_cons_of_mem _ hm

/-- A write at an existing address keeps every listed address below the size. -/
theorem Memory.within_write {m : Memory} {size a : Nat} (v : Byte) (h : m.within size = true) (ha : a < size) :
    (m.write a v).within size = true := by
  simp only [Memory.within, List.all_eq_true, decide_eq_true_eq] at h ⊢
  intro c hc
  unfold Memory.write at hc
  split at hc
  · exact h c (mem_of_mem_eraseCell hc)
  · rcases mem_insertCell hc with rfl | hc
    · exact ha
    · exact h c (mem_of_mem_eraseCell hc)

@[simp] theorem Memory.within_zero (size : Nat) : Memory.zero.within size = true := rfl

theorem Memory.within_writeBytes {m : Memory} {size : Nat} (bytes : List Byte) (a : Nat) (h : m.within size = true)
    (ha : a + bytes.length ≤ size) : (m.writeBytes a bytes).within size = true := by
  induction bytes generalizing m a with
  | nil => exact h
  | cons v rest ih =>
    simp only [List.length_cons] at ha
    exact ih (a + 1) (Memory.within_write v h (by omega)) (by omega)

end Sys2Proof.Machine
end

