-- ==== Sys2Proof/Laws/Operands.lean ====
section
/-! SUPPORT. What a handler's checks can answer, said once, and the laws of scratch, of the display and of the error
checks that the provers cite in place of the definitions. -/

namespace Sys2Proof.Machine

/-- A machine has between 32 and 256 bytes of memory. -/
theorem State.memBytes_bounds (s : State) : 32 ≤ s.memBytes ∧ s.memBytes ≤ 256 := by
  unfold State.memBytes; cases s.memSize <;> decide

/-- Everything a checked handler can do: a missing operand, a failed check, or the effect. -/
theorem State.checked_cases (s : State) (ops : List Operand) (effect : State) :
    (s.memBytes ≤ s.pc.toNat + ops.length ∧ s.checked ops effect = .next (s.raise .argsOutOfRange)) ∨
    (s.pc.toNat + ops.length < s.memBytes ∧
      ((∃ e, firstError s.memBytes ops = some e ∧ s.checked ops effect = .next (s.raise e)) ∨
        (firstError s.memBytes ops = none ∧ s.checked ops effect = .next effect))) := by
  unfold State.checked State.operandError State.lacksOperands
  by_cases h : s.memBytes ≤ s.pc.toNat + ops.length
  · exact .inl ⟨h, by simp [h]⟩
  · refine .inr ⟨by omega, ?_⟩
    cases hf : firstError s.memBytes ops with
    | none => exact .inr ⟨rfl, by simp [h]⟩
    | some e => exact .inl ⟨e, rfl, by simp [h]⟩

/-- A checked handler always answers a next state. -/
theorem State.checked_next (s : State) (ops : List Operand) (effect : State) : ∃ t, s.checked ops effect = .next t := by
  rcases s.checked_cases ops effect with h | ⟨-, ⟨e, -, h⟩ | h⟩
  · exact ⟨_, h.2⟩
  · exact ⟨_, h⟩
  · exact ⟨_, h.2⟩

section errors
variable (size : Nat) (a : Byte)
@[simp] theorem Operand.error_mem : (Operand.mem a).error size = if size ≤ a.toNat then some .badMemAddr else none := rfl
@[simp] theorem Operand.error_scr : (Operand.scr a).error size = if 8 ≤ a.toNat then some .badScratchAddr else none := rfl
@[simp] theorem Operand.error_coord : (Operand.coord a).error size = if 4 ≤ a.toNat then some .badCoord else none := rfl
@[simp] theorem Operand.error_target : (Operand.target a).error size = none := rfl
@[simp] theorem Operand.error_value : (Operand.value a).error size = none := rfl
@[simp] theorem Operand.error_count : (Operand.count a).error size = none := rfl
@[simp] theorem firstError_nil : firstError size [] = none := rfl
end errors

/-- The checks go in operand order: the first operand's error, if it has one, is the one reported. -/
theorem firstError_cons (size : Nat) (op : Operand) (ops : List Operand) :
    firstError size (op :: ops) = (op.error size).or (firstError size ops) := by
  rw [firstError]
  cases op.error size <;> rfl

/-! ## Scratch -/

theorem State.readScratch_eq (s : State) {i : Byte} (h : i.toNat < 8) :
    s.readScratch i = s.scratch.get ⟨i.toNat, h⟩ := by
  simp [State.readScratch, Vector.get, h]

theorem State.writeScratch_get (s : State) (d v : Byte) (i : Fin Config.scratchSize) :
    (s.writeScratch d v).scratch.get i = if i.val = d.toNat then v else s.scratch.get i := by
  have := i.isLt
  simp only [State.writeScratch_scratch, Vector.get_eq_getElem, Vector.getElem_setIfInBounds]
  simp [eq_comm]

/-! ## The display -/

@[simp] theorem Display.pixel_setPixel (d : Display) (x y x' y' : Fin Config.displaySize) (on : Bool) :
    (d.setPixel x' y' on).pixel x y = if x' = x ∧ y' = y then on else d.pixel x y := by
  simp only [Display.pixel, Display.setPixel, Vector.get_eq_getElem, Vector.getElem_set]
  by_cases hy : y' = y
  · subst hy
    by_cases hx : x' = x
    · subst hx; simp
    · have : x'.val ≠ x.val := fun h => hx (Fin.ext h)
      simp [hx, this]
  · have : y'.val ≠ y.val := fun h => hy (Fin.ext h)
    simp [hy, this]

@[simp] theorem Display.pixel_allOff (x y : Fin Config.displaySize) : Display.allOff.pixel x y = false := by
  simp [Display.allOff, Display.pixel, Vector.get_eq_getElem]

end Sys2Proof.Machine
end

