-- ==== Sys2Proof/Laws/PerInstr.lean ====
section
/-! SUPPORT. Statements about every instruction, as one lemma for each constructor of Instr. -/

namespace Sys2Proof

/-- The length the formats of 30_encoding.md R81 and R83 give an instruction: its opcode byte and 0 to 3 operand
bytes, or a count byte and two bytes for each pair. -/
def specLength : Instr → Nat
  | .halt | .loop | .setall | .setnone => 1
  | .wait _ | .load _ | .jump _ => 2
  | .store _ _ | .jumpif _ _ | .scratchStore _ _ | .scratchLoad _ _ | .scratchCopy _ _ | .scratchJumpif _ _
  | .not _ _ | .shl _ _ | .shr _ _ => 3
  | .add _ _ _ | .sub _ _ _ | .and _ _ _ | .or _ _ _ | .xor _ _ _ | .scratchAdd _ _ _ => 4
  | .set pairs => 2 + 2 * pairs.length
  | .clear pairs => 2 + 2 * pairs.length

namespace Laws.EncodedLength

/-- The encoding has the length the formats give, and a well-formed instruction is at most 512 bytes long (R83). -/
def Statement (i : Instr) : Prop :=
  (encode i).length = specLength i ∧ (i.WellFormed → (encode i).length ≤ longestInstr)

theorem of_pairs {pairs : List (Byte × Byte)} :
    (countedPairs pairs).length + 1 = 2 + 2 * pairs.length ∧
      (countFits pairs = true → (countedPairs pairs).length + 1 ≤ longestInstr) := by
  have h : (countedPairs pairs).length + 1 = 2 + 2 * pairs.length := by
    rw [countedPairs, List.length_cons, length_pairBytes]; omega
  refine ⟨h, fun hf => ?_⟩
  rw [h]; simp only [countFits, decide_eq_true_eq] at hf; simp only [longestInstr]; omega

theorem halt : Statement .halt := ⟨rfl, fun _ => by decide⟩
theorem set (pairs : List (Byte × Byte)) : Statement (.set pairs) := of_pairs
theorem clear (pairs : List (Byte × Byte)) : Statement (.clear pairs) := of_pairs
theorem wait (n : Byte) : Statement (.wait n) := ⟨rfl, fun _ => (by decide : 2 ≤ longestInstr)⟩
theorem loop : Statement .loop := ⟨rfl, fun _ => by decide⟩
theorem store (a v : Byte) : Statement (.store a v) := ⟨rfl, fun _ => (by decide : 3 ≤ longestInstr)⟩
theorem load (a : Byte) : Statement (.load a) := ⟨rfl, fun _ => (by decide : 2 ≤ longestInstr)⟩
theorem jump (a : Byte) : Statement (.jump a) := ⟨rfl, fun _ => (by decide : 2 ≤ longestInstr)⟩
theorem jumpif (a b : Byte) : Statement (.jumpif a b) := ⟨rfl, fun _ => (by decide : 3 ≤ longestInstr)⟩
theorem add (a b d : Byte) : Statement (.add a b d) := ⟨rfl, fun _ => (by decide : 4 ≤ longestInstr)⟩
theorem setall : Statement .setall := ⟨rfl, fun _ => by decide⟩
theorem setnone : Statement .setnone := ⟨rfl, fun _ => by decide⟩
theorem scratchStore (x v : Byte) : Statement (.scratchStore x v) := ⟨rfl, fun _ => (by decide : 3 ≤ longestInstr)⟩
theorem scratchLoad (x a : Byte) : Statement (.scratchLoad x a) := ⟨rfl, fun _ => (by decide : 3 ≤ longestInstr)⟩
theorem scratchAdd (x y d : Byte) : Statement (.scratchAdd x y d) := ⟨rfl, fun _ => (by decide : 4 ≤ longestInstr)⟩
theorem scratchCopy (a x : Byte) : Statement (.scratchCopy a x) := ⟨rfl, fun _ => (by decide : 3 ≤ longestInstr)⟩
theorem scratchJumpif (a x : Byte) : Statement (.scratchJumpif a x) := ⟨rfl, fun _ => (by decide : 3 ≤ longestInstr)⟩
theorem and (a b d : Byte) : Statement (.and a b d) := ⟨rfl, fun _ => (by decide : 4 ≤ longestInstr)⟩
theorem or (a b d : Byte) : Statement (.or a b d) := ⟨rfl, fun _ => (by decide : 4 ≤ longestInstr)⟩
theorem xor (a b d : Byte) : Statement (.xor a b d) := ⟨rfl, fun _ => (by decide : 4 ≤ longestInstr)⟩
theorem not (a d : Byte) : Statement (.not a d) := ⟨rfl, fun _ => (by decide : 3 ≤ longestInstr)⟩
theorem sub (a b d : Byte) : Statement (.sub a b d) := ⟨rfl, fun _ => (by decide : 4 ≤ longestInstr)⟩
theorem shl (a d : Byte) : Statement (.shl a d) := ⟨rfl, fun _ => (by decide : 3 ≤ longestInstr)⟩
theorem shr (a d : Byte) : Statement (.shr a d) := ⟨rfl, fun _ => (by decide : 3 ≤ longestInstr)⟩

end Laws.EncodedLength

end Sys2Proof
end

