-- ==== Sys2Proof/Laws/Ports.lean ====
section
/-! SUPPORT. What sending events can do, said once, and what the handler of SET and CLEAR can answer. -/

namespace Sys2Proof.Machine

/-- Events are appended to the trace. -/
theorem State.emitAll_trace (events : List Event) (s : State) : (s.emitAll events).trace = s.trace ++ events := by
  induction events generalizing s with
  | nil => simp [State.emitAll]
  | cons e rest ih => simp [State.emitAll, ih]

/-- Events change nothing but the trace, the display and the durable store. -/
theorem State.emitAll_eq (events : List Event) (s : State) : ∃ trace display store,
    s.emitAll events = { s with trace := trace, display := display, store := store } := by
  induction events generalizing s with
  | nil => exact ⟨s.trace, s.display, s.store, rfl⟩
  | cons e rest ih => obtain ⟨tr, d, st, h⟩ := ih (s.emit e); exact ⟨tr, d, st, by rw [State.emitAll, h]; rfl⟩

/-- The durable store changes only by saves. -/
theorem State.emitAll_store (events : List Event) (s : State) (h : ∀ e ∈ events, ∀ img, e ≠ .save img) :
    (s.emitAll events).store = s.store := by
  induction events generalizing s with
  | nil => rfl
  | cons e rest ih =>
    rw [State.emitAll, ih _ fun e' he' => h e' (List.mem_cons_of_mem _ he')]
    cases e with
    | save img => exact absurd rfl (h _ (List.mem_cons_self ..) img)
    | setPixel => rfl
    | clearAll => rfl

theorem pixelAfter_append (x y : Fin Config.displaySize) (old : Bool) (es fs : List Event) :
    pixelAfter x y old (es ++ fs) = pixelAfter x y (pixelAfter x y old es) fs := by
  induction es generalizing old with
  | nil => rfl
  | cons e rest ih => cases e <;> simp [pixelAfter, ih]

/-- Each pixel becomes what the events make of it. -/
theorem State.emitAll_pixel (events : List Event) (s : State) (x y : Fin Config.displaySize) :
    (s.emitAll events).display.pixel x y = pixelAfter x y (s.display.pixel x y) events := by
  induction events generalizing s with
  | nil => rfl
  | cons e rest ih => rw [State.emitAll, ih]; cases e <;> simp [Display.after, pixelAfter]

/-- One pair passes its two checks when both coordinates are 0 to 3, else the error is `BadCoord`. -/
theorem firstError_pair (size : Nat) (x y : Byte) :
    firstError size [.coord x, .coord y] = if pairInRange (x, y) = true then none else some .badCoord := by
  unfold pairInRange
  by_cases hx : x.toNat < 4 <;> by_cases hy : y.toNat < 4 <;> simp [firstError_cons, hx, hy]

/-- All pairs in range: one event for each, then the advance. -/
theorem State.drawPairs_inRange (on : Bool) (len : Nat) (pairs : List (Byte × Byte)) (s : State)
    (h : pairs.all pairInRange = true) :
    State.drawPairs on len pairs s = (s.emitAll (pairs.map (pairEvent on))).advance len := by
  induction pairs generalizing s with
  | nil => rfl
  | cons p rest ih =>
    simp only [List.all_cons, Bool.and_eq_true] at h
    simp only [State.drawPairs, firstError_pair, h.1, if_true]
    exact ih _ h.2

/-- A pair out of range: the events of the pairs before it, then the error halt. -/
theorem State.drawPairs_outOfRange (on : Bool) (len : Nat) (pairs : List (Byte × Byte)) (s : State)
    (h : pairs.all pairInRange ≠ true) :
    State.drawPairs on len pairs s
      = (s.emitAll ((pairs.takeWhile pairInRange).map (pairEvent on))).raise .badCoord := by
  induction pairs generalizing s with
  | nil => simp at h
  | cons p rest ih =>
    by_cases hp : pairInRange p = true
    · simp only [State.drawPairs, firstError_pair, hp, if_true, List.takeWhile_cons]
      exact ih _ (by simpa [hp] using h)
    · simp only [State.drawPairs, firstError_pair, hp, List.takeWhile_cons]; rfl

/-- Everything the handler of SET and CLEAR can do. -/
theorem State.draw_cases (s : State) (on : Bool) (pairs : List (Byte × Byte)) :
    (s.memBytes ≤ s.pc.toNat + (1 + 2 * pairs.length) ∧ s.draw on pairs = .next (s.raise .argsOutOfRange)) ∨
    (s.pc.toNat + (1 + 2 * pairs.length) < s.memBytes ∧
      ((pairs.all pairInRange = true ∧
          s.draw on pairs = .next ((s.emitAll (pairs.map (pairEvent on))).advance (2 + 2 * pairs.length))) ∨
        (pairs.all pairInRange ≠ true ∧ s.draw on pairs
          = .next ((s.emitAll ((pairs.takeWhile pairInRange).map (pairEvent on))).raise .badCoord)))) := by
  unfold State.draw State.lacksOperands
  by_cases h : s.memBytes ≤ s.pc.toNat + (1 + 2 * pairs.length)
  · exact .inl ⟨h, by simp [h]⟩
  · have h1 : ¬ s.memBytes ≤ s.pc.toNat + 1 := by omega
    refine .inr ⟨by omega, ?_⟩
    simp only [h, h1, decide_false, Bool.false_eq_true, if_false]
    by_cases hp : pairs.all pairInRange = true
    · exact .inl ⟨hp, by rw [State.drawPairs_inRange _ _ _ _ hp]⟩
    · exact .inr ⟨hp, by rw [State.drawPairs_outOfRange _ _ _ _ hp]⟩

end Sys2Proof.Machine
end

