-- ==== Sys2Proof/Laws/Step.lean ====
section
/-! SUPPORT. What a conditional branch and a step can do, said once. -/

namespace Sys2Proof.Machine

/-- The target when the tested byte is not 0, else the byte after the instruction. -/
theorem State.branchIf_cases (s : State) (tested target : Byte) :
    (0 < tested.toNat ∧ s.branchIf tested target = s.jumpTo target) ∨
    (tested.toNat = 0 ∧ s.branchIf tested target = s.advance 3) := by
  unfold State.branchIf isPositive
  by_cases h : 0 < tested.toNat
  · exact .inl ⟨h, by simp [h]⟩
  · exact .inr ⟨by omega, by rw [if_neg (by simpa using h)]⟩

/-- A dispatching machine goes on to the fetch. -/
theorem State.beforeDispatch_none {s : State} (h : s.Dispatching) : s.beforeDispatch = none := by
  obtain ⟨hr, hd, hp⟩ := h
  have hp' : ¬ s.memBytes ≤ s.pc.toNat := by omega
  simp [State.beforeDispatch, hr, hd, hp']

/-- Everything a step can do: nothing, a wait tick, an error halt before or at the fetch, or one instruction. -/
theorem step_cases {s t : State} (h : step s = .next t) :
    (s.running = false ∧ t = s) ∨
    (s.running = true ∧ s.delayRemaining ≠ 0 ∧ t = s.waitTick) ∨
    (s.running = true ∧ s.delayRemaining = 0 ∧ s.memBytes ≤ s.pc.toNat ∧ t = s.raise .pcOutOfRange) ∨
    (s.Dispatching ∧
      ((∃ e, s.fetchDecode = .error e ∧ t = s.raise e) ∨ (∃ i, s.fetchDecode = .ok i ∧ exec i s = .next t))) := by
  by_cases hd : s.Dispatching
  · refine .inr (.inr (.inr ⟨hd, ?_⟩))
    rw [step, State.beforeDispatch_none hd] at h
    cases hf : s.fetchDecode with
    | ok i => rw [hf] at h; exact .inr ⟨i, rfl, h⟩
    | error e => rw [hf] at h; cases h; exact .inl ⟨e, rfl, rfl⟩
  · unfold step State.beforeDispatch at h
    by_cases hr : s.running = false
    · rw [if_pos hr] at h; cases h; exact .inl ⟨hr, rfl⟩
    · rw [if_neg hr] at h
      have hr' : s.running = true := by simpa using hr
      by_cases hz : s.delayRemaining = 0
      · have hp : s.memBytes ≤ s.pc.toNat := by
          by_contra hp; exact hd ⟨hr', hz, by omega⟩
        rw [if_neg (not_not_intro hz), if_pos hp] at h; cases h
        exact .inr (.inr (.inl ⟨hr', hz, hp, rfl⟩))
      · rw [if_pos hz] at h; cases h; exact .inr (.inl ⟨hr', hz, rfl⟩)

end Sys2Proof.Machine
end

