-- ==== Sys2Proof/Tests/Slice0.lean ====
section
/-! SUPPORT. Tests: well-formedness, the decoding of one word of every constructor, and single steps. Expected
results are the spec's own worked examples and vectors (95_test_vectors.md) or are worked out by hand from a rule. -/

namespace Sys2Proof.Tests

open Sys2Proof.Machine

/-! ## Well-formedness -/

theorem test_wf_set_refuses_256_pairs : (Instr.set (List.replicate 256 (0, 0))).wf = false := by
  rw [Instr.wf, countFits, List.length_replicate]; rfl
theorem test_wf_clear_refuses_256_pairs : (Instr.clear (List.replicate 256 (0, 0))).wf = false := by
  rw [Instr.wf, countFits, List.length_replicate]; rfl
theorem test_wf_set_takes_255_pairs : (Instr.set (List.replicate 255 (0, 0))).wf = true := by
  rw [Instr.wf, countFits, List.length_replicate]; rfl

/-! ## Decoding: the bytes of 30_encoding.md R86 and R100, written out -/

theorem test_decode_halt : decode [0x00] = .ok (.halt, []) := by rfl
theorem test_decode_set : decode [0x01, 2, 0, 0, 1, 1] = .ok (.set [(0, 0), (1, 1)], []) := by rfl
theorem test_decode_clear : decode [0x02, 1, 3, 0, 9] = .ok (.clear [(3, 0)], [9]) := by rfl
theorem test_decode_wait : decode [0x03, 3] = .ok (.wait 3, []) := by rfl
theorem test_decode_loop : decode [0x04] = .ok (.loop, []) := by rfl
theorem test_decode_store : decode [0x05, 0x0A, 0xFF] = .ok (.store 10 255, []) := by rfl
theorem test_decode_load : decode [0x06, 0x0A] = .ok (.load 10, []) := by rfl
theorem test_decode_jump : decode [0x07, 0x14] = .ok (.jump 20, []) := by rfl
theorem test_decode_jumpif : decode [0x08, 0x09, 0x28] = .ok (.jumpif 9 40, []) := by rfl
theorem test_decode_add : decode [0x09, 0x0A, 0x0B, 0x0C] = .ok (.add 10 11 12, []) := by rfl
theorem test_decode_setall : decode [0x10] = .ok (.setall, []) := by rfl
theorem test_decode_setnone : decode [0x11] = .ok (.setnone, []) := by rfl
theorem test_decode_scratch_store : decode [0x12, 2, 0x64] = .ok (.scratchStore 2 100, []) := by rfl
theorem test_decode_scratch_load : decode [0x13, 5, 0x1E] = .ok (.scratchLoad 5 30, []) := by rfl
theorem test_decode_scratch_add : decode [0x14, 0, 1, 2] = .ok (.scratchAdd 0 1 2, []) := by rfl
theorem test_decode_scratch_copy : decode [0x15, 0x0A, 2] = .ok (.scratchCopy 10 2, []) := by rfl
theorem test_decode_scratch_jumpif : decode [0x16, 0x0A, 3] = .ok (.scratchJumpif 10 3, []) := by rfl
theorem test_decode_and : decode [0x17, 40, 41, 42] = .ok (.and 40 41 42, []) := by rfl
theorem test_decode_or : decode [0x18, 40, 41, 42] = .ok (.or 40 41 42, []) := by rfl
theorem test_decode_xor : decode [0x19, 40, 41, 42] = .ok (.xor 40 41 42, []) := by rfl
theorem test_decode_not : decode [0x20, 40, 42] = .ok (.not 40 42, []) := by rfl
theorem test_decode_sub : decode [0x21, 40, 41, 42] = .ok (.sub 40 41 42, []) := by rfl
theorem test_decode_shl : decode [0x22, 1, 31] = .ok (.shl 1 31, []) := by rfl
theorem test_decode_shr : decode [0x23, 40, 42] = .ok (.shr 40 42, []) := by rfl
/-- 0x0A is decimal 10 and no opcode (P4). -/
theorem test_decode_0A_is_no_opcode : decode [0x0A, 0] = .error (.unknownOpcode 0x0A) := by rfl
theorem test_decode_truncated : decode [0x05, 0] = .error .truncated := by rfl
theorem test_decode_set_truncated : decode [0x01, 2, 0, 0] = .error .truncated := by rfl
theorem test_table_word_store : decodeTableWord 24 0xFF0A05 = some (.store 10 255) := by rfl
theorem test_table_word_set_without_operands : decodeTableWord 8 0x01 = some (.set []) := by rfl

/-! ## Single steps

`at32` and `at64` are launch states (70_reset_and_hazards.md R271): bytes at the listed addresses, `pc` as given. -/

/-- A machine of the given size that dispatches at `pc`, memory listed as runs of bytes. -/
def at' (size : MemSize) (pc : PcWord) (runs : List (Nat × List Byte)) : State :=
  { State.reset with
    memSize := size
    memory := runs.foldl (fun m r => m.writeBytes r.1 r.2) Memory.zero
    pc := pc
    running := true }

def at32 : PcWord → List (Nat × List Byte) → State := at' .b32
def at64 : PcWord → List (Nat × List Byte) → State := at' .b64

/-- A property of the next state of one step. -/
def after (s : State) (p : State → Bool) : Bool :=
  match step s with
  | .next t => p t
  | .fault _ => false
  | .refused _ => false

/-- The step is the error halt with this code: `pc`, memory and scratch as they were. -/
def halts (s : State) (e : ErrorCode) : Bool :=
  after s fun t => !t.running && t.error == e && t.pc == s.pc && t.memory == s.memory && t.scratch == s.scratch

-- Step cycle (V-S1 to V-S7)
theorem test_step_wait_tick : after { at64 5 [] with delayRemaining := 1, delayTotal := 7 }
    (fun t => t.delayRemaining == 0 && t.delayTotal == 0 && t.pc == 5) = true := by decide
theorem test_step_setall_at_the_end : after (at32 31 [(31, [0x10])]) (fun t => t.pc == 32 && t.running) = true := by
  decide
theorem test_step_pc_out_of_range : halts (at32 32 []) .pcOutOfRange = true := by decide
theorem test_step_unknown_opcode : halts (at64 0 [(0, [0x0A])]) .unknownOpcode = true := by decide
theorem test_step_no_wrap_at_256 : halts (at' .b256 255 [(255, [0x07])]) .argsOutOfRange = true := by decide

-- Control (V-C1 to V-C10)
theorem test_halt : after (at64 9 []) (fun t => !t.running && t.error == .none && t.pc == 9) = true := by decide
theorem test_wait : after (at64 4 [(4, [0x03, 3])])
    (fun t => t.pc == 6 && t.delayRemaining == 3 && t.delayTotal == 3) = true := by decide
theorem test_loop : after { at64 13 [(13, [0x04])] with entryPoint := 4 } (fun t => t.pc == 4) = true := by decide
theorem test_jump_out_of_range : after (at32 0 [(0, [0x07, 0x28])]) (fun t => t.pc == 40 && t.running) = true := by
  decide
theorem test_jumpif_taken : after (at64 17 [(17, [0x08, 9, 0x28]), (40, [2])]) (fun t => t.pc == 9) = true := by
  decide
theorem test_jumpif_bad_test : halts (at32 0 [(0, [0x08, 0, 0x20])]) .badMemAddr = true := by decide
theorem test_scratch_jumpif_not_taken : after (at64 0 [(0, [0x16, 10, 3])]) (fun t => t.pc == 3) = true := by decide
theorem test_scratch_jumpif_bad : halts (at64 0 [(0, [0x16, 10, 8])]) .badScratchAddr = true := by decide

-- Display (V-D1 to V-D9)
theorem test_set : after (at64 0 [(0, [0x01, 2, 0, 0, 1, 1])])
    (fun t => t.pc == 6 && t.trace == [.setPixel 0 0 true, .setPixel 1 1 true]) = true := by decide
theorem test_set_partial : after (at64 0 [(0, [0x01, 2, 1, 1, 4, 0])])
    (fun t => t.error == .badCoord && t.pc == 0 && t.trace == [.setPixel 1 1 true]) = true := by decide
theorem test_clear : after { at64 8 [(8, [0x02, 1, 3, 0])] with display := Display.allOff.setPixel 3 0 true }
    (fun t => t.pc == 12 && t.display == Display.allOff) = true := by decide
theorem test_clear_truncated : halts (at32 28 [(28, [0x02, 2, 0, 0])]) .argsOutOfRange = true := by decide
theorem test_load : after (at64 0 [(0, [0x06, 10]), (10, [255])])
    (fun t => t.pc == 2 && t.trace == [.setPixel 0 0 true]) = true := by decide
theorem test_load_zero : after (at64 0 [(0, [0x06, 10])]) (fun t => t.trace == [.setPixel 0 0 false]) = true := by
  decide
theorem test_setall : after (at64 0 [(0, [0x10])])
    (fun t => t.trace.length == 16 && t.display == .replicate 4 (.replicate 4 true)) = true := by decide
theorem test_setnone : after { at64 0 [(0, [0x11])] with display := .replicate 4 (.replicate 4 true) }
    (fun t => t.trace == [.clearAll] && t.display == Display.allOff && t.pc == 1) = true := by decide

-- Memory and arithmetic (V-A1 to V-A26); a = 40, b = 41, dst = 42
theorem test_store : after (at64 0 [(0, [0x05, 10, 0xFF])]) (fun t => t.readMem 10 == 255 && t.pc == 3) = true := by
  decide
theorem test_store_bad : halts (at64 0 [(0, [0x05, 64, 1])]) .badMemAddr = true := by decide
theorem test_add : after (at64 0 [(0, [0x09, 40, 41, 42]), (40, [200, 100])])
    (fun t => t.readMem 42 == 44 && t.pc == 4) = true := by decide
theorem test_add_bad_dst : halts (at32 0 [(0, [0x09, 0, 1, 32])]) .badMemAddr = true := by decide
theorem test_sub : after (at64 0 [(0, [0x21, 40, 41, 42]), (40, [5, 10])]) (fun t => t.readMem 42 == 251) = true := by
  decide
theorem test_and : after (at64 0 [(0, [0x17, 40, 41, 42]), (40, [0xCC, 0xAA])])
    (fun t => t.readMem 42 == 0x88) = true := by decide
theorem test_or : after (at64 0 [(0, [0x18, 40, 41, 42]), (40, [0xCC, 0xAA])])
    (fun t => t.readMem 42 == 0xEE) = true := by decide
theorem test_xor : after (at64 0 [(0, [0x19, 40, 41, 42]), (40, [0xCC, 0xAA])])
    (fun t => t.readMem 42 == 0x66) = true := by decide
theorem test_not : after (at64 0 [(0, [0x20, 40, 42]), (40, [0x5A])]) (fun t => t.readMem 42 == 0xA5) = true := by
  decide
theorem test_shl : after (at64 0 [(0, [0x22, 40, 42]), (40, [200])]) (fun t => t.readMem 42 == 144) = true := by
  decide
theorem test_shr : after (at64 0 [(0, [0x23, 40, 42]), (40, [0xFF])]) (fun t => t.readMem 42 == 0x7F) = true := by
  decide

-- Scratch (V-X1 to V-X5)
theorem test_scratch_store : after (at64 0 [(0, [0x12, 2, 100])])
    (fun t => t.readScratch 2 == 100 && t.pc == 3 && t.trace == [.save t.scratch]) = true := by decide
theorem test_scratch_store_bad : halts (at64 0 [(0, [0x12, 8, 1])]) .badScratchAddr = true := by decide
theorem test_scratch_load : after ((at64 0 [(0, [0x13, 5, 30])]).writeScratch 5 42)
    (fun t => t.readMem 30 == 42 && t.trace == []) = true := by decide
theorem test_scratch_load_order : halts (at32 0 [(0, [0x13, 8, 32])]) .badScratchAddr = true := by decide
theorem test_scratch_add : after (((at64 0 [(0, [0x14, 0, 1, 2])]).writeScratch 0 200).writeScratch 1 100)
    (fun t => t.readScratch 2 == 44 && t.pc == 4) = true := by decide
theorem test_scratch_copy : after (at64 0 [(0, [0x15, 10, 2]), (10, [50])])
    (fun t => t.readScratch 2 == 50 && t.trace == [.save t.scratch]) = true := by decide
theorem test_scratch_copy_order : halts (at32 0 [(0, [0x15, 32, 8])]) .badMemAddr = true := by decide

/-! ## The interface: a table word placed after reset is the next step's instruction -/

theorem test_fetch_word_runs : after (State.reset.withFetchWord 24 0x071005)
    (fun t => t.readMem 16 == 7 && t.pc == 3) = true := by decide
theorem test_reset_halted : after State.reset (fun t => t == State.reset) = true := by decide

/-! ## Host operations (V-H1, V-H2) and the assembler (S6, S7, P3) -/

theorem test_construct_default : construct 64 none Display.allOff = some State.reset := by decide
theorem test_construct_refuses : construct 48 none Display.allOff = none := by decide
theorem test_host_reset : (({ at64 13 [(0, [1])] with entryPoint := 4, delayRemaining := 2, delayTotal := 2 }
      : State).writeScratch 0 9).hostReset
    = ({ State.reset with entryPoint := 4, pc := 4 } : State).writeScratch 0 9 := by decide

/-- The bytes of an assembled image from `a` on, none when it was not assembled. -/
def imageFrom (a n : Nat) (text : List Char) : Option (List Byte) :=
  match assemble .b64 text with
  | .success r => some ((r.image.drop a).take n)
  | .failure _ _ _ => none
  | .undefined _ _ => none

/-- `set 0 0,1 1`: mnemonics in any case (S7). -/
theorem test_assemble_set : imageFrom 0 7 ['s', 'e', 't', ' ', '0', ' ', '0', ',', '1', ' ', '1']
    = some [1, 2, 0, 0, 1, 1, 0] := by decide
/-- `EP 4` and `SHL 1 31` on the next line. -/
theorem test_assemble_ep : imageFrom 3 5 ['E', 'P', ' ', '4', '\n', 'S', 'H', 'L', ' ', '1', ' ', '3', '1']
    = some [0, 0x22, 1, 31, 0] := by decide
/-- The problem of one line of text. -/
def problemOf (text : List Char) : Option LineProblem :=
  match (Assembly.start .b64).line 1 text with
  | .ok _ => none
  | .error p => some p

/-- `ADD 1 2` lacks an operand, and `STORE 1 256` has a value above 255 (the classes are the choice of log 28). -/
theorem test_assemble_operand_errors : problemOf ['A', 'D', 'D', ' ', '1', ' ', '2'] = some (.error .malformedOperand) ∧
    problemOf ['S', 'T', 'O', 'R', 'E', ' ', '1', ' ', '2', '5', '6'] = some (.error .outOfRange) := by decide
/-- `SET 9 0` is out of range; `SET 9 z` and `SET 9 9 9` are not two coordinates (R99; the order of log 28). -/
theorem test_assemble_pair_errors : problemOf ['S', 'E', 'T', ' ', '9', ' ', '0'] = some (.error .outOfRange) ∧
    problemOf ['S', 'E', 'T', ' ', '9', ' ', 'z'] = some (.error .malformedOperand) ∧
    problemOf ['S', 'E', 'T', ' ', '9', ' ', '9', ' ', '9'] = some (.error .malformedOperand) := by decide
/-- `FOO # c` and `FOO#O 1` have no recognised mnemonic (R96); `LOOP # c` is a form that is not defined (N14). -/
theorem test_assemble_number_sign : problemOf ['F', 'O', 'O', ' ', '#', ' ', 'c'] = some (.error .invalidMnemonic) ∧
    problemOf ['F', 'O', 'O', '#', 'O', ' ', '1'] = some (.error .invalidMnemonic) ∧
    problemOf ['L', 'O', 'O', 'P', ' ', '#', ' ', 'c'] = some (.undefined .trailingComment) := by decide
/-- `3,5`, `1.5`, `12x`, a lone sign and an unclosed quote do not parse (R97); nor do `FF` and `FFh` (log 21). -/
theorem test_parse_malformed : ([['3', ',', '5'], ['1', '.', '5'], ['1', '2', 'x'], ['-'], ['\'', 'a'], ['0', 'x'],
      ['F', 'F'], ['F', 'F', 'h']].map
      parseNumber).all (· == .error (.error .malformedOperand)) = true := by decide
/-- `0x1f`, `1Fh`, `$1F`, `0b101`, `0o17`, `-5`, `+0x5` and a quoted character are forms not defined (N16). -/
theorem test_parse_undefined : ([['0', 'x', '1', 'f'], ['1', 'F', 'h'], ['$', '1', 'F'], ['0', 'b', '1', '0', '1'],
      ['0', 'o', '1', '7'], ['-', '5'], ['+', '0', 'x', '5'], ['\'', 'a', '\'']].map
      parseNumber).all (· == .error (.undefined .literalForm)) = true := by decide

/-! ## Witnesses: for each statement with hypotheses or clauses, concrete values that meet them, at the boundaries -/

/-- A property of the next state of one exec. -/
def execAfter (i : Instr) (s : State) (p : State → Bool) : Bool :=
  match exec i s with
  | .next t => p t
  | .fault _ => false
  | .refused _ => false

/-- exec is the error halt with this code. -/
def execHalts (i : Instr) (s : State) (e : ErrorCode) : Bool :=
  execAfter i s fun t => t == s.raise e

/-- exec completes: the next state has no error and this `pc`. -/
def completes (i : Instr) (s : State) (pc : Nat) : Bool :=
  execAfter i s fun t => t.error == .none && t.pc.toNat == pc

/-- Error halt, because the last operand byte would lie at `MEM_SIZE`, or completion, when it lies just below. -/
def fitsExactly (i : Instr) (pc next : Nat) : Bool :=
  execHalts i (at32 (BitVec.ofNat 9 (pc + 1)) []) .argsOutOfRange && completes i (at32 (BitVec.ofNat 9 pc) []) next

-- Encoding
theorem witness_DecodeOfEncode :
    (Instr.shr 255 0).WellFormed ∧ (Instr.set (List.replicate 255 (3, 3))).WellFormed :=
  ⟨rfl, by rw [Instr.WellFormed, Instr.wf, countFits, List.length_replicate]; rfl⟩
theorem witness_DecodedBytes : decode [0x02, 1, 255, 4, 9] = .ok (.clear [(255, 4)], [9]) := by rfl
theorem witness_IllegalBytes_ranges : illegalByte 0x0A ∧ illegalByte 0x0F ∧ illegalByte 0x1A ∧ illegalByte 0x1F ∧
    illegalByte 0x24 ∧ illegalByte 0xFF ∧ ¬ illegalByte 0x09 ∧ ¬ illegalByte 0x10 ∧ ¬ illegalByte 0x19 ∧
    ¬ illegalByte 0x20 ∧ ¬ illegalByte 0x23 := by decide
theorem witness_IllegalBytes_step : (at32 31 [(31, [0x24])]).Dispatching ∧
    illegalByte ((at32 31 [(31, [0x24])]).memory.read (at32 31 [(31, [0x24])]).pc.toNat) := by decide
theorem witness_AssembledStatement_store :
    assembleStatement .b32 .STORE ['3', '1', ' ', '2', '5', '5'] = .ok [0x05, 31, 255] ∧
      [(0x05 : Byte), 31, 255].length ≤ 256 := by decide
theorem witness_AssembledStatement_set :
    assembleStatement .b32 .SET ['3', ' ', '0', ',', '0', ' ', '3'] = .ok [0x01, 2, 3, 0, 0, 3] ∧
      [(0x01 : Byte), 2, 3, 0, 0, 3].length ≤ 256 := by decide

-- The step engine
theorem witness_StepRunsTheDecoded : (at32 29 [(29, [0x05, 31, 7])]).Dispatching ∧
    ∃ rest, decode (at32 29 [(29, [0x05, 31, 7])]).fetchBytes = .ok (.store 31 7, rest) := ⟨by decide, _, rfl⟩
theorem witness_StepRunsInMemory : (at32 29 [(29, [0x05, 31, 7])]).Dispatching ∧ (Instr.store 31 7).WellFormed ∧
    29 + (encode (.store 31 7)).length ≤ (at32 29 [(29, [0x05, 31, 7])]).memBytes ∧
    (at32 29 [(29, [0x05, 31, 7])]).memory.bytes 29 (encode (.store 31 7)).length = encode (.store 31 7) := by decide
theorem witness_Truncated : (at32 31 [(31, [0x07])]).Dispatching ∧
    decode (at32 31 [(31, [0x07])]).memoryFromPc = .error .truncated := ⟨by decide, rfl⟩
theorem witness_BytesBeyond_ok : (at32 31 [(31, [0x03])]).Dispatching ∧
    511 ≤ (List.replicate 511 (0xFF : Byte)).length ∧
    ∃ rest, decode ((at32 31 [(31, [0x03])]).memoryFromPc ++ List.replicate 511 0xFF) = .ok (.wait 0xFF, rest) :=
  ⟨by decide, by rw [List.length_replicate], _, rfl⟩
theorem witness_BytesBeyond_error : (at32 31 [(31, [0x0A])]).Dispatching ∧
    decode ((at32 31 [(31, [0x0A])]).memoryFromPc ++ List.replicate 511 0xFF) = .error (.unknownOpcode 0x0A) :=
  ⟨by decide, rfl⟩
theorem witness_HaltedStep : State.reset.running = false ∧ ((at32 9 []).raise .badCoord).running = false := by decide
theorem witness_WaitTick : ({ at32 5 [] with delayRemaining := 1, delayTotal := 3 } : State).running = true ∧
    ({ at32 5 [] with delayRemaining := 1, delayTotal := 3 } : State).delayRemaining ≠ 0 ∧
    after { at32 5 [] with delayRemaining := 2, delayTotal := 3 }
      (fun t => t.delayRemaining == 1 && t.delayTotal == 3) = true := by decide
theorem witness_PcBeyond : (at32 32 []).running = true ∧ (at32 32 []).delayRemaining = 0 ∧
    (at32 32 []).memBytes ≤ (at32 32 []).pc.toNat ∧ (at' .b256 256 []).memBytes ≤ (at' .b256 256 []).pc.toNat := by decide
theorem witness_WaitTick_at_the_end :
    after { at32 32 [] with delayRemaining := 1, delayTotal := 1 }
      (fun t => t.delayRemaining == 0 && decide (t.memBytes ≤ t.pc.toNat)) = true := by decide
theorem witness_PcBeyond_only : (at32 32 []).error ≠ .pcOutOfRange ∧
    ∃ t, step (at32 32 []) = .next t ∧ t.error = .pcOutOfRange := ⟨by decide, _, rfl, rfl⟩
theorem witness_NextFetch : (at32 28 [(28, [0x05, 31, 0x0A])]).Dispatching ∧
    (at32 28 [(28, [0x05, 31, 0x0A])]).pc.toNat + 3 < (at32 28 [(28, [0x05, 31, 0x0A])]).memBytes ∧
    (31 : Byte).toNat = (at32 28 [(28, [0x05, 31, 0x0A])]).pc.toNat + 3 ∧
    (at32 28 [(28, [0x05, 31, 0x0A])]).memory.bytes 28 3 = [0x05, 31, 0x0A] ∧ illegalByte 0x0A := by decide

-- Control
theorem witness_Wait : fitsExactly (.wait 255) 30 32 = true := by decide
theorem witness_WaitSuspends : (at32 30 [(30, [0x03, 255])]).Dispatching ∧
    (at32 30 [(30, [0x03, 255])]).pc.toNat + 1 < (at32 30 [(30, [0x03, 255])]).memBytes ∧
    (at32 30 [(30, [0x03, 255])]).memory.bytes 30 2 = [0x03, 255] ∧ 255 ≤ (255 : Byte).toNat := by decide
theorem witness_WaitSuspends_zero : (at32 30 [(30, [0x03, 0])]).Dispatching ∧
    (at32 30 [(30, [0x03, 0])]).memory.bytes 30 2 = [0x03, 0] ∧ 0 ≤ (0 : Byte).toNat := by decide
theorem witness_Loop_spin : ({ at32 4 [] with entryPoint := 4 } : State).pc.toNat
      = ({ at32 4 [] with entryPoint := 4 } : State).entryPoint.toNat ∧
    ({ at32 4 [] with entryPoint := 4 } : State).Inv ∧
    completes .loop { at32 4 [] with entryPoint := 4 } 4 = true := by decide
theorem witness_Jump_spin : (30 : Byte).toNat = (at32 30 []).pc.toNat ∧
    completes (.jump 30) (at32 30 []) 30 = true := by decide
theorem witness_Jump_bad_target : (at32 30 []).running = true ∧ (at32 30 []).delayRemaining = 0 ∧
    (at32 30 []).memBytes ≤ (32 : Byte).toNat ∧ completes (.jump 32) (at32 30 []) 32 = true := by decide
theorem witness_Jump : fitsExactly (.jump 255) 30 255 = true := by decide
theorem witness_Jumpif : fitsExactly (.jumpif 0 31) 29 32 = true ∧
    execHalts (.jumpif 0 32) (at32 29 []) .badMemAddr = true ∧
    completes (.jumpif 255 31) (at32 29 [(31, [1])]) 255 = true := by decide
theorem witness_ScratchJumpif : fitsExactly (.scratchJumpif 0 7) 29 32 = true ∧
    execHalts (.scratchJumpif 0 8) (at32 29 []) .badScratchAddr = true ∧
    completes (.scratchJumpif 255 7) ((at32 29 []).writeScratch 7 1) 255 = true := by decide
theorem witness_WildJump : (at32 30 [(30, [0x07, 32])]).Dispatching ∧
    (at32 30 [(30, [0x07, 32])]).pc.toNat + 1 < (at32 30 [(30, [0x07, 32])]).memBytes ∧
    (at32 30 [(30, [0x07, 32])]).memory.bytes 30 2 = [0x07, 32] ∧
    (at32 30 [(30, [0x07, 32])]).memBytes ≤ (32 : Byte).toNat := by decide

-- Display
theorem witness_SetAndClear : fitsExactly (.set [(3, 3)]) 28 32 = true ∧ fitsExactly (.clear [(0, 3)]) 28 32 = true ∧
    fitsExactly (.set []) 30 32 = true ∧ ([(3, 3), (0, 3)] : List (Byte × Byte)).all pairInRange = true := by decide
theorem witness_SetAndClear_bad : ¬ (at32 26 []).memBytes ≤ (at32 26 []).pc.toNat + (1 + 2 * 2) ∧
    ([(3, 3), (0, 4)] : List (Byte × Byte)).all pairInRange = false ∧
    execAfter (.set [(3, 3), (0, 4)]) (at32 26 [])
      (fun t => t.error == .badCoord && t.trace == [.setPixel 3 3 true]) = true := by decide
theorem witness_Load : fitsExactly (.load 31) 30 32 = true ∧ execHalts (.load 32) (at32 30 []) .badMemAddr = true := by
  decide
theorem witness_Setall_Setnone : (at32 31 []).pc.toNat < (at32 31 []).memBytes ∧
    completes .setall (at32 31 []) 32 = true ∧ completes .setnone (at32 31 []) 32 = true := by decide

-- Memory and arithmetic
theorem witness_Store : fitsExactly (.store 31 7) 29 32 = true ∧
    execHalts (.store 32 7) (at32 29 []) .badMemAddr = true := by decide
theorem witness_AddAndSub : (200 : Nat) = ((at32 0 [(30, [200, 100])]).memory.read (30 : Byte).toNat).toNat ∧
    (100 : Nat) = ((at32 0 [(30, [200, 100])]).memory.read (31 : Byte).toNat).toNat ∧
    fitsExactly (.add 31 31 31) 28 32 = true ∧ fitsExactly (.sub 31 31 31) 28 32 = true ∧
    execHalts (.sub 0 32 0) (at32 28 []) .badMemAddr = true := by decide
theorem witness_AndOrXor : (0xCC : Byte) = (at32 0 [(30, [0xCC, 0xAA])]).memory.read (30 : Byte).toNat ∧
    (0xAA : Byte) = (at32 0 [(30, [0xCC, 0xAA])]).memory.read (31 : Byte).toNat ∧
    fitsExactly (.and 31 0 31) 28 32 = true ∧ fitsExactly (.or 31 0 31) 28 32 = true ∧
    fitsExactly (.xor 31 0 31) 28 32 = true ∧ execHalts (.xor 0 0 32) (at32 28 []) .badMemAddr = true := by decide
theorem witness_NotShlShr : (200 : Byte) = (at32 0 [(31, [200])]).memory.read (31 : Byte).toNat ∧
    fitsExactly (.not 31 31) 29 32 = true ∧ fitsExactly (.shl 31 31) 29 32 = true ∧
    fitsExactly (.shr 31 31) 29 32 = true ∧ execHalts (.shl 32 0) (at32 29 []) .badMemAddr = true := by decide

-- Scratch
theorem witness_ScratchStore : fitsExactly (.scratchStore 7 255) 29 32 = true ∧
    execHalts (.scratchStore 8 255) (at32 29 []) .badScratchAddr = true := by decide
theorem witness_ScratchLoad : fitsExactly (.scratchLoad 7 31) 29 32 = true ∧
    execHalts (.scratchLoad 8 31) (at32 29 []) .badScratchAddr = true ∧
    execHalts (.scratchLoad 7 32) (at32 29 []) .badMemAddr = true := by decide
theorem witness_ScratchAdd : fitsExactly (.scratchAdd 7 7 7) 28 32 = true ∧
    execHalts (.scratchAdd 7 7 8) (at32 28 []) .badScratchAddr = true := by decide
theorem witness_ScratchCopy : fitsExactly (.scratchCopy 31 7) 29 32 = true ∧
    execHalts (.scratchCopy 32 7) (at32 29 []) .badMemAddr = true ∧
    execHalts (.scratchCopy 31 8) (at32 29 []) .badScratchAddr = true := by decide

-- The whole machine
theorem witness_EveryStep : (at32 29 [(29, [0x13, 7, 31])]).Inv ∧ ∃ t, step (at32 29 [(29, [0x13, 7, 31])]) = .next t :=
  ⟨by decide, _, rfl⟩
theorem witness_HostOperations : (at32 32 [(31, [0x10])]).Inv ∧
    (∃ t, (at32 32 [(31, [0x10])]).load (List.replicate 32 0) 31 = some t) ∧
    (List.replicate 32 (0 : Byte)).length = (at32 32 [(31, [0x10])]).memBytes ∧ 31 < (at32 32 [(31, [0x10])]).memBytes :=
  ⟨by decide, ⟨_, rfl⟩, by decide, by decide⟩
theorem witness_ErrorsArePrecise : (at32 31 [(31, [0x07])]).error = .none ∧
    ∃ t, step (at32 31 [(31, [0x07])]) = .next t ∧ t.error ≠ .none ∧ t.error ≠ .badCoord :=
  ⟨rfl, _, rfl, by decide, by decide⟩
theorem witness_ErrorsArePrecise_coord : (at32 26 [(26, [0x01, 2, 3, 3, 0, 4])]).error = .none ∧
    ∃ t, step (at32 26 [(26, [0x01, 2, 3, 3, 0, 4])]) = .next t ∧ t.error = .badCoord := ⟨rfl, _, rfl, by decide⟩
theorem witness_WriteEachSpace : (∃ t, exec (.jumpif 0 31) (at32 29 []) = .next t) ∧
    writesMemory (.jumpif 0 31) = false ∧ writesScratch (.jumpif 0 31) = false ∧ writesPixels (.jumpif 0 31) = false :=
  ⟨⟨_, rfl⟩, rfl, rfl, rfl⟩
theorem witness_RaiseEachError : (at32 29 []).error = .none ∧
    execHalts (.halt) (at32 29 []) .none = true ∧
    execHalts (.scratchLoad 7 31) (at32 30 []) .argsOutOfRange = true ∧
    execHalts (.scratchLoad 7 32) (at32 29 []) .badMemAddr = true ∧
    execHalts (.scratchLoad 8 31) (at32 29 []) .badScratchAddr = true ∧
    execHalts (.set [(4, 0)]) (at32 28 []) .badCoord = true := by decide
theorem witness_NothingOutside :
    (at32 29 [(29, [0x12, 7, 1])]).SameMachine
      { at32 29 [(29, [0x12, 7, 1])] with trace := [.clearAll], store := ⟨some Scratch.zero, [], 5⟩ } ∧
    (∃ t, step (at32 29 [(29, [0x12, 7, 1])]) = .next t) ∧
    ∃ t, step { at32 29 [(29, [0x12, 7, 1])] with trace := [.clearAll], store := ⟨some Scratch.zero, [], 5⟩ } = .next t :=
  ⟨⟨rfl, rfl, rfl, ⟨rfl, rfl⟩, ⟨rfl, rfl⟩, rfl, rfl⟩, ⟨_, rfl⟩, _, rfl⟩
theorem witness_DisplayShows : ∃ t, step (at32 28 [(28, [0x01, 1, 3, 3])]) = .next t ∧
    t.trace = [.setPixel 3 3 true] ∧ t.display.pixel 3 3 = true := ⟨_, rfl, by decide, by decide⟩
theorem witness_DurableImage_step : (∃ t, step (at32 29 [(29, [0x12, 7, 1])]) = .next t ∧ t.trace = [.save t.scratch]) ∧
    ∃ t, step (at32 31 [(31, [0x10])]) = .next t ∧ savedImages t.trace = [] := ⟨⟨_, rfl, rfl⟩, _, rfl, by decide⟩
theorem witness_DurableImage : ∃ t, core.run 2 (at32 29 [(29, [0x12, 7, 1])]) = .next t ∧ t.store.saves = 1 :=
  ⟨_, rfl, rfl⟩
theorem witness_CanonicalMemories : (Memory.ofImage [0, 1, 2]).wf = true ∧
    ((Memory.zero.write 2 2).write 1 1).wf = true ∧ Memory.ofImage [0, 1, 2] = (Memory.zero.write 2 2).write 1 1 := by
  decide

-- Host operations
theorem witness_Construct : (construct 32 (some Scratch.zero) Display.allOff).isSome = true ∧
    (construct 256 none Display.allOff).isSome = true ∧ construct 255 none Display.allOff = none := by decide
theorem witness_Load_clauses : ((at32 0 []).load (List.replicate 32 1) 31).isSome = true ∧
    (at32 0 []).load (List.replicate 32 1) 32 = none ∧ (at32 0 []).load (List.replicate 31 1) 0 = none := by decide
theorem witness_AssembledProgram_loaded : ∃ a, assemble (at32 0 []).memSize ['L', 'O', 'O', 'P'] = .success a :=
  ⟨⟨.b32, 0x04 :: List.replicate 31 0, 0, 1, [(0, 1)]⟩, by decide⟩
theorem witness_AssembledProgram_rejected : ∃ a, assemble (at32 0 []).memSize ['L', 'O', 'O', 'P', '\n', 'X']
    = .failure a 2 .invalidMnemonic := ⟨⟨.b32, 0x04 :: List.replicate 31 0, 0, 1, [(0, 1)]⟩, by decide⟩

end Sys2Proof.Tests
end

/-! PROOF. The canonical form of memory has one representative for each content (10_state.md R21, log 10). -/

namespace Sys2Proof.Machine

theorem canonicalFrom_cons {low k : Nat} {v : Byte} {rest : List Host.Cell} :
    canonicalFrom low ((k, v) :: rest) = true ↔
      low ≤ k ∧ v ≠ Memory.unlisted ∧ canonicalFrom (k + 1) rest = true := by
  simp [canonicalFrom, and_assoc]

@[simp] theorem lookupCell_cons_same (k : Nat) (v : Byte) (rest : List Host.Cell) :
    lookupCell ((k, v) :: rest) k = v := by
  simp [lookupCell]

theorem lookupCell_cons_other {a k : Nat} (h : a ≠ k) (v : Byte) (rest : List Host.Cell) :
    lookupCell ((k, v) :: rest) a = lookupCell rest a := by
  simp [lookupCell, h.symm]

/-- No address below the bound of a canonical list is listed. -/
theorem lookupCell_eq_unlisted_of_lt {low a : Nat} {cells : List Host.Cell} (h : canonicalFrom low cells = true)
    (ha : a < low) : lookupCell cells a = Memory.unlisted := by
  induction cells generalizing low with
  | nil => rfl
  | cons c rest ih =>
    obtain ⟨k, v⟩ := c
    obtain ⟨hk, -, hrest⟩ := canonicalFrom_cons.mp h
    rw [lookupCell_cons_other (by omega)]
    exact ih hrest (by omega)

/-- The first cell of a canonical list has the lowest address that does not read as an unlisted one. -/
theorem head_le_of_lookupCell_ne {low k a : Nat} {v : Byte} {rest : List Host.Cell}
    (h : canonicalFrom low ((k, v) :: rest) = true) (ha : lookupCell ((k, v) :: rest) a ≠ Memory.unlisted) :
    k ≤ a := by
  by_contra hlt
  obtain ⟨-, hv, hrest⟩ := canonicalFrom_cons.mp h
  exact ha (lookupCell_eq_unlisted_of_lt (canonicalFrom_cons.mpr ⟨le_rfl, hv, hrest⟩) (by omega))

/-- Behind equal first addresses the tails read alike wherever the whole lists do. -/
theorem lookupCell_tail_congr {k : Nat} {v v' : Byte} {rest rest' : List Host.Cell}
    (hrest : canonicalFrom (k + 1) rest = true) (hrest' : canonicalFrom (k + 1) rest' = true)
    (hread : ∀ a, lookupCell ((k, v) :: rest) a = lookupCell ((k, v') :: rest') a) (a : Nat) :
    lookupCell rest a = lookupCell rest' a := by
  by_cases ha : a = k
  · rw [lookupCell_eq_unlisted_of_lt hrest (by omega), lookupCell_eq_unlisted_of_lt hrest' (by omega)]
  · simpa only [lookupCell_cons_other ha] using hread a

/-- Lists that read alike begin at the same address with the same byte, and so do their tails. -/
theorem cells_eq_of_lookupCell_eq {low low' : Nat} {cells cells' : List Host.Cell} (h : canonicalFrom low cells = true)
    (h' : canonicalFrom low' cells' = true) (hread : ∀ a, lookupCell cells a = lookupCell cells' a) :
    cells = cells' := by
  induction cells generalizing low low' cells' with
  | nil =>
    cases cells' with
    | nil => rfl
    | cons c' rest' =>
      obtain ⟨k', v'⟩ := c'
      have hv' : Memory.unlisted = v' := by simpa [lookupCell] using hread k'
      obtain ⟨-, hne, -⟩ := canonicalFrom_cons.mp h'
      exact absurd hv'.symm hne
  | cons c rest ih =>
    obtain ⟨k, v⟩ := c
    obtain ⟨-, hv, hrest⟩ := canonicalFrom_cons.mp h
    cases cells' with
    | nil => exact absurd (by simpa [lookupCell] using hread k) hv
    | cons c' rest' =>
      obtain ⟨k', v'⟩ := c'
      obtain ⟨-, hv', hrest'⟩ := canonicalFrom_cons.mp h'
      have hle : k ≤ k' := head_le_of_lookupCell_ne h (by rwa [hread, lookupCell_cons_same])
      have hge : k' ≤ k := head_le_of_lookupCell_ne h' (by rwa [← hread, lookupCell_cons_same])
      obtain rfl : k = k' := Nat.le_antisymm hle hge
      have hvv : v = v' := by simpa using hread k
      rw [hvv, ih hrest hrest' (lookupCell_tail_congr hrest hrest' hread)]

/-- Settles O46, by induction on the two lists of cells. -/
theorem canonicalMemoriesThatReadAlikeAreEqual : Obligations.CanonicalMemoriesThatReadAlikeAreEqual := by
  rintro ⟨cells⟩ ⟨cells'⟩ h h' hread
  exact congrArg Memory.mk (cells_eq_of_lookupCell_eq h h' hread)

end Sys2Proof.Machine

/-! PROOF. Every operation on the state keeps the invariants of 10_state.md R34, and so does every instruction. -/

namespace Sys2Proof.Machine

/-! ## Operands that passed their checks -/

/-- The checks of a handler pass when each operand's check passes. -/
theorem firstError_eq_none_iff {size : Nat} {ops : List Operand} :
    firstError size ops = none ↔ ∀ op ∈ ops, op.error size = none := by
  induction ops with
  | nil => simp
  | cons op rest ih => simp [firstError_cons, ih]

/-- An address that passed its check lies inside memory. -/
theorem mem_lt_of_firstError {size : Nat} {ops : List Operand} {a : Byte} (hok : firstError size ops = none)
    (ha : Operand.mem a ∈ ops) : a.toNat < size := by
  simpa using firstError_eq_none_iff.mp hok _ ha

theorem Memory.within_ofImage {image : List Byte} {size : Nat} (h : image.length ≤ size) :
    (Memory.ofImage image).within size = true :=
  Memory.within_writeBytes image 0 (Memory.within_zero size) (by omega)

/-! ## One rule for each operation on the state -/

namespace State

variable {s t : State}

/-- A machine that is not running must have both counters at 0 (R34 b), and may hold any error code (R34 a). -/
theorem inv_of_stopped (hrun : s.running = false) (hrem : s.delayRemaining = 0) (htot : s.delayTotal = 0)
    (hep : s.entryPoint.toNat < s.memBytes) (hpc : s.pc.toNat ≤ 256) (hwf : s.memory.wf = true)
    (hin : s.memory.within s.memBytes = true) : s.Inv :=
  ⟨fun _ => hrun, fun _ => ⟨hrem, htot⟩, by simp [hrem], fun _ => htot, hep, hpc, hwf, hin⟩

theorem Inv.raise (h : s.Inv) (hrem : s.delayRemaining = 0) (e : ErrorCode) : (s.raise e).Inv := by
  obtain ⟨-, -, -, hzero, hep, hpc, hwf, hin⟩ := h
  exact inv_of_stopped rfl hrem (hzero hrem) hep hpc hwf hin

theorem Inv.haltClean (h : s.Inv) (hrem : s.delayRemaining = 0) : s.haltClean.Inv := by
  obtain ⟨-, -, -, hzero, hep, hpc, hwf, hin⟩ := h
  exact inv_of_stopped rfl hrem (hzero hrem) hep hpc hwf hin

/-- Loading both counters is allowed only while the machine runs (R34 b). -/
theorem Inv.startWait (h : s.Inv) (hrun : s.running = true) (n : Byte) : (s.startWait n).Inv := by
  obtain ⟨herr, -, -, -, hfixed⟩ := h
  exact ⟨herr, fun hstop => by simp [hrun] at hstop, le_rfl, id, hfixed⟩

/-- A tick of a wait with time left cannot wrap the count below 0, and the last one clears both counters (R122). -/
theorem Inv.waitTick (h : s.Inv) (hrun : s.running = true) (hrem : s.delayRemaining ≠ 0) : s.waitTick.Inv := by
  obtain ⟨herr, -, hle, -, hfixed⟩ := h
  refine ⟨herr, fun hstop => by simp [hrun] at hstop, ?_, fun hlast => if_pos hlast, hfixed⟩
  rw [waitTick_delayRemaining, waitTick_delayTotal]
  split
  · next hlast => rw [hlast]
  · bv_omega

/-- An instruction that ends inside memory leaves `pc` at most at the end of the largest one, 256 (R23). -/
theorem Inv.advance (h : s.Inv) {n : Nat} (hn : s.pc.toNat + n ≤ s.memBytes) : (s.advance n).Inv := by
  obtain ⟨herr, hstop, hle, hzero, hep, -, hmem⟩ := h
  have hsize := s.memBytes_bounds.2
  refine ⟨herr, hstop, hle, hzero, hep, ?_, hmem⟩
  rw [advance_pc, BitVec.toNat_ofNat]
  omega

/-- A branch target is one byte, so it lies below 256 even where it is no address of this machine (R146). -/
theorem Inv.jumpTo (h : s.Inv) (target : Byte) : (s.jumpTo target).Inv := by
  obtain ⟨herr, hstop, hle, hzero, hep, -, hmem⟩ := h
  refine ⟨herr, hstop, hle, hzero, hep, ?_, hmem⟩
  rw [jumpTo_pc, BitVec.toNat_setWidth]
  omega

theorem Inv.branchIf (h : s.Inv) (hpc : s.pc.toNat + 3 ≤ s.memBytes) (tested target : Byte) :
    (s.branchIf tested target).Inv := by
  rcases s.branchIf_cases tested target with ⟨-, hb⟩ | ⟨-, hb⟩
  · rw [hb]; exact h.jumpTo target
  · rw [hb]; exact h.advance hpc

/-- The caller has checked the address, which keeps the list of cells inside `MEM_SIZE` (R51). -/
theorem Inv.writeMem (h : s.Inv) {a : Byte} (ha : a.toNat < s.memBytes) (v : Byte) : (s.writeMem a v).Inv := by
  obtain ⟨herr, hstop, hle, hzero, hep, hpc, hwf, hin⟩ := h
  exact ⟨herr, hstop, hle, hzero, hep, hpc, Memory.wf_write _ v hwf, Memory.within_write v hin ha⟩

/-- The invariants do not speak of scratch. -/
theorem Inv.writeScratch (h : s.Inv) (i v : Byte) : (s.writeScratch i v).Inv := h

/-- The invariants do not speak of the ports. -/
theorem Inv.emit (h : s.Inv) (e : Event) : (s.emit e).Inv := h

theorem Inv.emitSave (h : s.Inv) : s.emitSave.Inv := h

section emitAll
variable (s : State) (events : List Event)

/-- Events change no control register; the equations below are its parts. -/
theorem emitAll_frame : (s.emitAll events).pc = s.pc ∧ (s.emitAll events).memBytes = s.memBytes ∧
    (s.emitAll events).delayRemaining = s.delayRemaining := by
  obtain ⟨trace, display, store, heq⟩ := s.emitAll_eq events
  rw [heq]
  exact ⟨rfl, rfl, rfl⟩

@[simp] theorem emitAll_pc : (s.emitAll events).pc = s.pc := (s.emitAll_frame events).1
@[simp] theorem emitAll_memBytes : (s.emitAll events).memBytes = s.memBytes := (s.emitAll_frame events).2.1
@[simp] theorem emitAll_delayRemaining : (s.emitAll events).delayRemaining = s.delayRemaining :=
  (s.emitAll_frame events).2.2
end emitAll

theorem Inv.emitAll (h : s.Inv) (events : List Event) : (s.emitAll events).Inv := by
  obtain ⟨trace, display, store, heq⟩ := s.emitAll_eq events
  rw [heq]
  exact h

/-! ## The shared handlers -/

/-- A checked handler keeps the invariants if its effect does when every check has passed. -/
theorem Inv.of_checked {ops : List Operand} {effect : State} (h : s.Inv) (hrem : s.delayRemaining = 0)
    (ht : s.checked ops effect = .next t)
    (heffect : s.pc.toNat + ops.length < s.memBytes → firstError s.memBytes ops = none → effect.Inv) : t.Inv := by
  rcases s.checked_cases ops effect with ⟨-, hc⟩ | ⟨hlen, ⟨e, -, hc⟩ | ⟨hok, hc⟩⟩ <;> cases hc.symm.trans ht
  · exact h.raise hrem _
  · exact h.raise hrem e
  · exact heffect hlen hok

theorem Inv.of_binary {f : Byte → Byte → Byte} {a b dst : Byte} (h : s.Inv) (hrem : s.delayRemaining = 0)
    (ht : s.binary f a b dst = .next t) : t.Inv :=
  h.of_checked hrem ht fun hlen hok => (h.writeMem (mem_lt_of_firstError hok (by simp)) _).advance hlen

theorem Inv.of_unary {g : Byte → Byte} {a dst : Byte} (h : s.Inv) (hrem : s.delayRemaining = 0)
    (ht : s.unary g a dst = .next t) : t.Inv :=
  h.of_checked hrem ht fun hlen hok => (h.writeMem (mem_lt_of_firstError hok (by simp)) _).advance hlen

theorem Inv.of_draw {on : Bool} {pairs : List (Byte × Byte)} (h : s.Inv) (hrem : s.delayRemaining = 0)
    (ht : s.draw on pairs = .next t) : t.Inv := by
  rcases s.draw_cases on pairs with ⟨-, hc⟩ | ⟨hlen, ⟨-, hc⟩ | ⟨-, hc⟩⟩ <;> cases hc.symm.trans ht
  · exact h.raise hrem _
  · exact (h.emitAll _).advance (by rw [emitAll_pc, emitAll_memBytes]; omega)
  · exact (h.emitAll _).raise (by rwa [emitAll_delayRemaining]) _

end State

/-! ## Every instruction and every step -/

/-- Every instruction, dispatched, keeps the invariants. -/
theorem exec_keeps_inv {i : Instr} {s t : State} (h : s.Inv) (hd : s.Dispatching) (ht : exec i s = .next t) :
    t.Inv := by
  obtain ⟨hrun, hrem, hpc⟩ := hd
  cases i with
  | halt => cases ht; exact h.haltClean hrem
  | set pairs => exact h.of_draw hrem ht
  | clear pairs => exact h.of_draw hrem ht
  | wait n => exact h.of_checked hrem ht fun hlen _ => (h.startWait hrun n).advance hlen
  | loop => cases ht; exact h.jumpTo _
  | store addr value =>
    exact h.of_checked hrem ht fun hlen hok =>
      (h.writeMem (mem_lt_of_firstError hok (by simp)) value).advance hlen
  | load addr => exact h.of_checked hrem ht fun hlen _ => (h.emit _).advance hlen
  | jump addr => exact h.of_checked hrem ht fun _ _ => h.jumpTo addr
  | jumpif addr testAddr => exact h.of_checked hrem ht fun hlen _ => h.branchIf hlen _ addr
  | setall => cases ht; exact (h.emitAll allOnEvents).advance (by simpa using hpc)
  | setnone => cases ht; exact (h.emit .clearAll).advance hpc
  | scratchStore x value =>
    exact h.of_checked hrem ht fun hlen _ => (h.writeScratch x value).emitSave.advance hlen
  | scratchLoad x addr =>
    exact h.of_checked hrem ht fun hlen hok =>
      (h.writeMem (mem_lt_of_firstError hok (by simp)) _).advance hlen
  | scratchAdd x1 x2 dst =>
    exact h.of_checked hrem ht fun hlen _ => (h.writeScratch dst _).emitSave.advance hlen
  | scratchCopy addr x =>
    exact h.of_checked hrem ht fun hlen _ => (h.writeScratch x _).emitSave.advance hlen
  | scratchJumpif addr x => exact h.of_checked hrem ht fun hlen _ => h.branchIf hlen _ addr
  | add a b dst | sub a b dst | and a b dst | or a b dst | xor a b dst => exact h.of_binary hrem ht
  | not a dst | shl a dst | shr a dst => exact h.of_unary hrem ht

/-- Settles O37, by the cases of what a step can do. -/
theorem everyStepKeepsTheInvariants : Obligations.EveryStepKeepsTheInvariants := by
  intro s t h ht
  rcases step_cases ht with ⟨-, rfl⟩ | ⟨hrun, hrem, rfl⟩ | ⟨-, hrem, -, rfl⟩ | ⟨hd, ⟨e, -, rfl⟩ | ⟨i, -, hexec⟩⟩
  · exact h
  · exact h.waitTick hrun hrem
  · exact h.raise hrem _
  · exact h.raise hd.2.1 e
  · exact exec_keeps_inv h hd hexec

/-! ## The host operations -/

theorem State.construct_inv (size : MemSize) (stored : Option Scratch) (display : Display) :
    (State.construct size stored display).Inv :=
  State.inv_of_stopped rfl rfl rfl
    ((show 0 < 32 by decide).trans_le (State.construct size stored display).memBytes_bounds.1)
    (Nat.zero_le _) Memory.wf_zero (Memory.within_zero _)

/-- State.reset is the construction with the default size, no stored image and a display that is off. -/
theorem State.reset_eq_construct :
    State.reset = State.construct Config.defaultMemSize none Display.allOff := rfl

/-- Settles O38: State.reset is one of the constructions. -/
theorem constructionMeetsTheInvariants : Obligations.ConstructionMeetsTheInvariants :=
  ⟨State.reset_eq_construct ▸ State.construct_inv _ _ _, State.construct_inv⟩

namespace State

variable {s t : State}

theorem Inv.hostReset (h : s.Inv) : s.hostReset.Inv := by
  obtain ⟨-, -, -, -, hep, -⟩ := h
  refine inv_of_stopped rfl rfl rfl hep ?_ Memory.wf_zero (Memory.within_zero _)
  rw [hostReset_pc, BitVec.toNat_setWidth]
  omega

/-- What a Load that is not refused answers. -/
theorem load_eq_some {image : List Byte} {ep : Nat} (h : s.load image ep = some t) :
    image.length = s.memBytes ∧ ep < s.memBytes ∧
      t = { s with
        memory := Memory.ofImage image, entryPoint := BitVec.ofNat 8 ep, pc := BitVec.ofNat 9 ep
        delayRemaining := 0, delayTotal := 0, running := true, error := .none } := by
  simp only [load, Option.ite_none_right_eq_some, Option.some.injEq] at h
  obtain ⟨⟨hlen, hep⟩, rfl⟩ := h
  exact ⟨hlen, hep, rfl⟩

/-- A legal entry point fits the 8 bits of its register. -/
theorem toNat_ofNat_entryPoint {ep : Nat} (hep : ep < s.memBytes) : (BitVec.ofNat 8 ep).toNat = ep := by
  have hsize := s.memBytes_bounds.2
  rw [BitVec.toNat_ofNat]
  omega

theorem inv_of_load {image : List Byte} {ep : Nat} (h : s.load image ep = some t) : t.Inv := by
  obtain ⟨hlen, hep, rfl⟩ := load_eq_some h
  have hsize := s.memBytes_bounds.2
  refine ⟨fun herr => absurd rfl herr, fun hstop => by simp at hstop, le_rfl, fun _ => rfl, ?_, ?_,
    Memory.wf_ofImage image, Memory.within_ofImage hlen.le⟩
  · exact (toNat_ofNat_entryPoint hep).trans_lt hep
  · rw [BitVec.toNat_ofNat]; omega

theorem loadFailed_inv {image : List Byte} {ep : Nat} (hlen : image.length = s.memBytes) (hep : ep < s.memBytes) :
    (s.loadFailed image ep).Inv :=
  inv_of_stopped rfl rfl rfl ((toNat_ofNat_entryPoint hep).trans_lt hep) (Nat.zero_le _)
    (Memory.wf_ofImage image) (Memory.within_ofImage hlen.le)

end State

/-- Settles O39, one rule for each host operation. -/
theorem hostOperationsKeepTheInvariants : Obligations.HostOperationsKeepTheInvariants :=
  fun _ h => ⟨h.hostReset, fun _ _ _ => State.inv_of_load, fun _ _ => State.loadFailed_inv⟩

end Sys2Proof.Machine

/-! PROOF. A store is seen by the very next fetch (20_memory.md R58, R61). -/

namespace Sys2Proof.Machine

/-! ## What a byte at `pc` makes the step do -/

/-- The 232 values of 30_encoding.md R87 are in no row of the opcode map. -/
theorem not_illegalByte_opcode (op : Opcode) : ¬ illegalByte op.byte := by cases op <;> decide

theorem ofByte_of_illegalByte {b : Byte} (hb : illegalByte b) : Opcode.ofByte b = none := by
  cases hop : Opcode.ofByte b with
  | none => rfl
  | some op => exact absurd (Opcode.byte_of_ofByte hop ▸ hb) (not_illegalByte_opcode op)

/-- The opcode byte alone decides that the bytes are rejected (30_encoding.md R80). -/
theorem decode_of_illegalByte {b : Byte} (hb : illegalByte b) (rest : List Byte) :
    decode (b :: rest) = .error (.unknownOpcode b) := by
  rw [decode, ofByte_of_illegalByte hb]

theorem decode_store (a v : Byte) (rest : List Byte) : decode (0x05 :: a :: v :: rest) = .ok (.store a v, rest) := rfl

namespace State

variable {s : State}

/-- The first `n` bytes of the fetch are the bytes of memory at `pc`, if memory has so many. -/
theorem memoryFromPc_eq_append {n : Nat} (h : s.pc.toNat + n ≤ s.memBytes) :
    s.memoryFromPc = s.memory.bytes s.pc.toNat n
      ++ s.memory.bytes (s.pc.toNat + n) (s.memBytes - (s.pc.toNat + n)) := by
  rw [memoryFromPc, ← Memory.bytes_add]
  congr 1
  omega

theorem memoryFromPc_head? (h : s.pc.toNat < s.memBytes) :
    s.memoryFromPc.head? = some (s.memory.read s.pc.toNat) := by
  rw [memoryFromPc_eq_append (n := 1) h]
  rfl

theorem fetchDecode_of_decode_ok {i : Instr} {rest : List Byte} (h : decode s.fetchBytes = .ok (i, rest)) :
    s.fetchDecode = .ok i := by
  rw [fetchDecode, h]

theorem fetchDecode_store {a v : Byte} (hpc : s.pc.toNat + 3 ≤ s.memBytes)
    (hbytes : s.memory.bytes s.pc.toNat 3 = [0x05, a, v]) : s.fetchDecode = .ok (.store a v) := by
  apply fetchDecode_of_decode_ok
  rw [fetchBytes, memoryFromPc_eq_append hpc, hbytes]
  exact decode_store a v _

theorem fetchDecode_of_illegalByte (hpc : s.pc.toNat < s.memBytes) (hb : illegalByte (s.memory.read s.pc.toNat)) :
    s.fetchDecode = .error .unknownOpcode := by
  obtain ⟨rest, hfrom⟩ := List.head?_eq_some_iff.mp (memoryFromPc_head? hpc)
  rw [fetchDecode, fetchBytes, hfrom, List.cons_append, decode_of_illegalByte hb]

theorem Dispatching.pc_lt (hd : s.Dispatching) : s.pc.toNat < s.memBytes := hd.2.2

theorem step_of_fetchDecode_ok {i : Instr} (hd : s.Dispatching) (hf : s.fetchDecode = .ok i) :
    step s = exec i s := by
  rw [step, beforeDispatch_none hd, hf]

theorem step_of_fetchDecode_error {e : ErrorCode} (hd : s.Dispatching) (hf : s.fetchDecode = .error e) :
    step s = .next (s.raise e) := by
  rw [step, beforeDispatch_none hd, hf]

theorem step_of_illegalByte (hd : s.Dispatching) (hb : illegalByte (s.memory.read s.pc.toNat)) :
    s.ErrorHalt .unknownOpcode (step s) :=
  step_of_fetchDecode_error hd (fetchDecode_of_illegalByte hd.pc_lt hb)

/-! ## A store at `pc` -/

/-- A handler whose operands exist and pass their checks has its effect. -/
theorem checked_of_ok {ops : List Operand} (hlen : s.pc.toNat + ops.length < s.memBytes)
    (hok : firstError s.memBytes ops = none) (effect : State) : s.checked ops effect = .next effect := by
  rcases s.checked_cases ops effect with ⟨hlack, -⟩ | ⟨-, ⟨e, herr, -⟩ | ⟨-, heffect⟩⟩
  · omega
  · simp [hok] at herr
  · exact heffect

theorem exec_store_of_lt {a : Byte} (hpc : s.pc.toNat + 2 < s.memBytes) (ha : a.toNat < s.memBytes) (v : Byte) :
    exec (.store a v) s = .next ((s.writeMem a v).advance 3) :=
  checked_of_ok hpc (by simp [firstError_cons, ha]) _

/-- The 9 bits of `pc` hold every address of memory and its end (10_state.md R23), so the advance does not wrap. -/
theorem advance_pc_toNat {n : Nat} (h : s.pc.toNat + n ≤ s.memBytes) : (s.advance n).pc.toNat = s.pc.toNat + n := by
  have hsize := s.memBytes_bounds.2
  rw [advance_pc, BitVec.toNat_ofNat]
  omega

theorem Dispatching.advance (hd : s.Dispatching) {n : Nat} (h : s.pc.toNat + n < s.memBytes) :
    (s.advance n).Dispatching := by
  obtain ⟨hrun, hrem, -⟩ := hd
  exact ⟨hrun, hrem, by rwa [advance_pc_toNat h.le]⟩

theorem Dispatching.writeMem (hd : s.Dispatching) (a v : Byte) : (s.writeMem a v).Dispatching := hd

end State

/-- Settles O15: the store leaves `pc` at the address it wrote. -/
theorem nextFetchSeesTheStoredByte : Obligations.NextFetchSeesTheStoredByte := by
  intro s a v hd hpc ha hbytes
  have hstep : step s = .next ((s.writeMem a v).advance 3) := by
    rw [State.step_of_fetchDecode_ok hd (State.fetchDecode_store hpc.le hbytes)]
    exact State.exec_store_of_lt (by omega) (by omega) v
  have hd' : ((s.writeMem a v).advance 3).Dispatching := (hd.writeMem a v).advance hpc
  have hpc' : ((s.writeMem a v).advance 3).pc.toNat = a.toNat :=
    (State.advance_pc_toNat (s := s.writeMem a v) hpc.le).trans ha.symm
  have hread : ((s.writeMem a v).advance 3).memory.read ((s.writeMem a v).advance 3).pc.toNat = v := by
    rw [hpc']
    exact Memory.read_write_same s.memory a.toNat v
  refine ⟨_, hstep, hd', ?_, fun hv => State.step_of_illegalByte hd' ?_⟩
  · rw [State.memoryFromPc_head? hd'.pc_lt, hread]
  · rwa [hread]

end Sys2Proof.Machine

/-! PROOF. Which instruction can change which space (20_memory.md R53; 10_state.md R21, R22, R24). -/

namespace Sys2Proof.Machine

/-! ## The events of the display instructions are no saves -/

theorem ne_save_of_mem_pairEvents {on : Bool} {pairs : List (Byte × Byte)} :
    ∀ e ∈ pairs.map (pairEvent on), ∀ img, e ≠ .save img := by
  intro e he img
  obtain ⟨pair, -, rfl⟩ := List.mem_map.mp he
  exact Event.noConfusion

theorem ne_save_of_mem_allOnEvents : ∀ e ∈ allOnEvents, ∀ img, e ≠ .save img := by
  simp [allOnEvents]

namespace State

/-- `t` differs from `s` only in the spaces allowed: `m` memory, `x` scratch and its saves, `p` the display. The control
registers other than `MEM_SIZE` and the entry point are free. -/
def ChangesOnly (m x p : Bool) (s t : State) : Prop :=
  (m = false → s.SameMemory t) ∧
  (x = false → t.scratch = s.scratch ∧ t.store = s.store) ∧
  (p = false → t.display = s.display) ∧
  (x = false → p = false → t.trace = s.trace) ∧
  s.SameFixed t

variable {m x p : Bool} {s t : State}

/-! ## One rule for each operation on the state -/

theorem ChangesOnly.refl : ChangesOnly m x p s s :=
  ⟨fun _ _ => rfl, fun _ => ⟨rfl, rfl⟩, fun _ => rfl, fun _ _ => rfl, rfl, rfl⟩

section -- control registers
variable (h : ChangesOnly m x p s t)
include h
theorem ChangesOnly.raise (e : ErrorCode) : ChangesOnly m x p s (t.raise e) := h
theorem ChangesOnly.haltClean : ChangesOnly m x p s t.haltClean := h
theorem ChangesOnly.startWait (n : Byte) : ChangesOnly m x p s (t.startWait n) := h
theorem ChangesOnly.jumpTo (target : Byte) : ChangesOnly m x p s (t.jumpTo target) := h
theorem ChangesOnly.advance (n : Nat) : ChangesOnly m x p s (t.advance n) := h

theorem ChangesOnly.branchIf (tested target : Byte) : ChangesOnly m x p s (t.branchIf tested target) := by
  rcases t.branchIf_cases tested target with ⟨-, hb⟩ | ⟨-, hb⟩ <;> rw [hb]
  · exact h.jumpTo target
  · exact h.advance 3
end

theorem ChangesOnly.writeMem (h : ChangesOnly true x p s t) (a v : Byte) : ChangesOnly true x p s (t.writeMem a v) := by
  obtain ⟨-, hrest⟩ := h
  exact ⟨nofun, hrest⟩

/-- Every write of scratch ends with a save (44_scratch.md R184); a save does not reach the display. -/
theorem ChangesOnly.writeScratch_emitSave (h : ChangesOnly m true p s t) (i v : Byte) :
    ChangesOnly m true p s (t.writeScratch i v).emitSave := by
  obtain ⟨hmem, -, hdisp, -, hfixed⟩ := h
  exact ⟨hmem, nofun, hdisp, nofun, hfixed⟩

/-- Events for the display port leave the durable store as it is (50_interfaces.md R208). -/
theorem ChangesOnly.emitAll (h : ChangesOnly m x true s t) {events : List Event}
    (hevents : ∀ e ∈ events, ∀ img, e ≠ .save img) : ChangesOnly m x true s (t.emitAll events) := by
  have hstore := t.emitAll_store events hevents
  obtain ⟨trace, display, store, heq⟩ := t.emitAll_eq events
  obtain ⟨hmem, hscratch, -, -, hfixed⟩ := h
  rw [heq] at hstore ⊢
  exact ⟨hmem, fun hx => (hscratch hx).imp_right hstore.trans, nofun, nofun, hfixed⟩

theorem ChangesOnly.emit (h : ChangesOnly m x true s t) {e : Event} (he : ∀ img, e ≠ .save img) :
    ChangesOnly m x true s (t.emit e) :=
  h.emitAll (events := [e]) (by simpa using he)

/-! ## The shared handlers -/

/-- A checked handler changes what its effect changes; a failed check changes less. -/
theorem ChangesOnly.of_checked {ops : List Operand} {effect : State} (ht : s.checked ops effect = .next t)
    (heffect : ChangesOnly m x p s effect) : ChangesOnly m x p s t := by
  rcases s.checked_cases ops effect with ⟨-, hc⟩ | ⟨-, ⟨e, -, hc⟩ | ⟨-, hc⟩⟩ <;> cases hc.symm.trans ht
  · exact refl.raise _
  · exact refl.raise e
  · exact heffect

theorem ChangesOnly.of_binary {f : Byte → Byte → Byte} {a b dst : Byte} (ht : s.binary f a b dst = .next t) :
    ChangesOnly true x p s t :=
  of_checked ht ((refl.writeMem dst _).advance 4)

theorem ChangesOnly.of_unary {g : Byte → Byte} {a dst : Byte} (ht : s.unary g a dst = .next t) :
    ChangesOnly true x p s t :=
  of_checked ht ((refl.writeMem dst _).advance 3)

theorem ChangesOnly.of_draw {on : Bool} {pairs : List (Byte × Byte)} (ht : s.draw on pairs = .next t) :
    ChangesOnly m x true s t := by
  rcases s.draw_cases on pairs with ⟨-, hc⟩ | ⟨-, ⟨-, hc⟩ | ⟨-, hc⟩⟩ <;> cases hc.symm.trans ht
  · exact refl.raise _
  · exact (refl.emitAll ne_save_of_mem_pairEvents).advance _
  · exact (refl.emitAll ne_save_of_mem_pairEvents).raise _

end State

open State (ChangesOnly)

/-- Every instruction changes only the spaces it is listed for. -/
theorem exec_changesOnly {i : Instr} {s t : State} (ht : exec i s = .next t) :
    ChangesOnly (writesMemory i) (writesScratch i) (writesPixels i) s t := by
  cases i with
  | halt => cases ht; exact ChangesOnly.refl.haltClean
  | set pairs | clear pairs => exact ChangesOnly.of_draw ht
  | wait n => exact ChangesOnly.of_checked ht ((ChangesOnly.refl.startWait n).advance 2)
  | loop => cases ht; exact ChangesOnly.refl.jumpTo s.entryPoint
  | store addr value => exact ChangesOnly.of_checked ht ((ChangesOnly.refl.writeMem addr value).advance 3)
  | load addr => exact ChangesOnly.of_checked ht ((ChangesOnly.refl.emit (by simp)).advance 2)
  | jump addr => exact ChangesOnly.of_checked ht (ChangesOnly.refl.jumpTo addr)
  | jumpif addr testAddr => exact ChangesOnly.of_checked ht (ChangesOnly.refl.branchIf _ addr)
  | setall => cases ht; exact (ChangesOnly.refl.emitAll ne_save_of_mem_allOnEvents).advance 1
  | setnone => cases ht; exact (ChangesOnly.refl.emit (by simp)).advance 1
  | scratchStore i value =>
    exact ChangesOnly.of_checked ht ((ChangesOnly.refl.writeScratch_emitSave i value).advance 3)
  | scratchLoad i addr => exact ChangesOnly.of_checked ht ((ChangesOnly.refl.writeMem addr _).advance 3)
  | scratchAdd i1 i2 dst =>
    exact ChangesOnly.of_checked ht ((ChangesOnly.refl.writeScratch_emitSave dst _).advance 4)
  | scratchCopy addr i => exact ChangesOnly.of_checked ht ((ChangesOnly.refl.writeScratch_emitSave i _).advance 3)
  | scratchJumpif addr i => exact ChangesOnly.of_checked ht (ChangesOnly.refl.branchIf _ addr)
  | add a b dst | sub a b dst | and a b dst | or a b dst | xor a b dst => exact ChangesOnly.of_binary ht
  | not a dst | shl a dst | shr a dst => exact ChangesOnly.of_unary ht

/-- Settles O41: ChangesOnly, with the three lists for its flags, is the statement. -/
theorem onlyTheListedInstructionsWriteEachSpace : Obligations.OnlyTheListedInstructionsWriteEachSpace :=
  fun _ _ _ => exec_changesOnly

end Sys2Proof.Machine

/-! PROOF. Decoding and encoding are inverse, and the bytes that are no opcode are rejected (30_encoding.md R80, R81,
R83, R87, R89). -/

namespace Sys2Proof.Machine

/-! ## The four operand formats -/

section -- one to three operand bytes
variable {bytes rest : List Byte} {i : Instr} {e : DecodeError}

theorem operand1_eq_ok {make : Byte → Instr} :
    operand1 make bytes = .ok (i, rest) ↔ ∃ a, i = make a ∧ bytes = a :: rest := by
  rcases bytes with _ | ⟨a, tail⟩
  · simp [operand1]
  · simp [operand1, eq_comm]

theorem operand2_eq_ok {make : Byte → Byte → Instr} :
    operand2 make bytes = .ok (i, rest) ↔ ∃ a b, i = make a b ∧ bytes = a :: b :: rest := by
  rcases bytes with _ | ⟨a, _ | ⟨b, tail⟩⟩
  · simp [operand2]
  · simp [operand2]
  · simp [operand2, eq_comm]

theorem operand3_eq_ok {make : Byte → Byte → Byte → Instr} :
    operand3 make bytes = .ok (i, rest) ↔ ∃ a b c, i = make a b c ∧ bytes = a :: b :: c :: rest := by
  rcases bytes with _ | ⟨a, _ | ⟨b, _ | ⟨c, tail⟩⟩⟩
  · simp [operand3]
  · simp [operand3]
  · simp [operand3]
  · simp [operand3, eq_comm]

theorem eq_truncated_of_operand1 {make : Byte → Instr} (h : operand1 make bytes = .error e) : e = .truncated := by
  unfold operand1 at h
  split at h <;> cases h
  rfl

theorem eq_truncated_of_operand2 {make : Byte → Byte → Instr} (h : operand2 make bytes = .error e) :
    e = .truncated := by
  unfold operand2 at h
  split at h <;> cases h
  rfl

theorem eq_truncated_of_operand3 {make : Byte → Byte → Byte → Instr} (h : operand3 make bytes = .error e) :
    e = .truncated := by
  unfold operand3 at h
  split at h <;> cases h
  rfl

end

section -- counted pairs
variable {make : List (Byte × Byte) → Instr} {bytes rest : List Byte} {i : Instr} {e : DecodeError}

/-- The count byte holds the number of pairs exactly when there are at most 255 (R81). -/
theorem operandPairs_eq_ok : operandPairs make bytes = .ok (i, rest) ↔
    ∃ pairs, countFits pairs = true ∧ i = make pairs ∧ bytes = countedPairs pairs ++ rest := by
  constructor
  · intro h
    unfold operandPairs at h
    split at h
    · next count tail =>
      split at h <;> cases h
      next pairs htake =>
      obtain ⟨hlen, rfl⟩ := takePairs_some htake
      refine ⟨pairs, ?_, rfl, ?_⟩
      · simp only [countFits, hlen, decide_eq_true_eq]
        omega
      · simp [countedPairs, hlen]
    · cases h
  · rintro ⟨pairs, hfits, rfl, rfl⟩
    have hcount : (BitVec.ofNat 8 pairs.length).toNat = pairs.length := by
      simp only [countFits, decide_eq_true_eq] at hfits
      rw [BitVec.toNat_ofNat]
      omega
    simp only [countedPairs, List.cons_append, operandPairs, hcount, takePairs_pairBytes]

theorem eq_truncated_of_operandPairs (h : operandPairs make bytes = .error e) : e = .truncated := by
  unfold operandPairs at h
  split at h
  · split at h <;> cases h
    rfl
  · cases h
    rfl

end

/-! ## The operands of a row -/

/-- What follows an opcode byte reads as an instruction exactly when it begins with the operand bytes of that
well-formed instruction of the row. -/
theorem decodeOperands_eq_ok {op : Opcode} {bytes rest : List Byte} {i : Instr} :
    decodeOperands op bytes = .ok (i, rest) ↔
      i.opcode = op ∧ i.WellFormed ∧ bytes = i.operandBytes ++ rest := by
  constructor
  · intro h
    cases op with
    | HALT | LOOP | SETALL | SETNONE => cases h; exact ⟨rfl, rfl, rfl⟩
    | WAIT | LOAD | JUMP =>
      obtain ⟨a, rfl, rfl⟩ := operand1_eq_ok.mp h
      exact ⟨rfl, rfl, rfl⟩
    | STORE | JUMPIF | SCRATCH_STORE | SCRATCH_LOAD | SCRATCH_COPY | SCRATCH_JUMPIF | NOT | SHL | SHR =>
      obtain ⟨a, b, rfl, rfl⟩ := operand2_eq_ok.mp h
      exact ⟨rfl, rfl, rfl⟩
    | ADD | SUB | AND | OR | XOR | SCRATCH_ADD =>
      obtain ⟨a, b, c, rfl, rfl⟩ := operand3_eq_ok.mp h
      exact ⟨rfl, rfl, rfl⟩
    | SET | CLEAR =>
      obtain ⟨pairs, hfits, rfl, rfl⟩ := operandPairs_eq_ok.mp h
      exact ⟨rfl, hfits, rfl⟩
  · rintro ⟨rfl, hwf, rfl⟩
    cases i with
    | set pairs | clear pairs => exact operandPairs_eq_ok.mpr ⟨pairs, hwf, rfl, rfl⟩
    | _ => rfl

/-- Behind a legal opcode byte the only error is that the bytes run out. -/
theorem eq_truncated_of_decodeOperands {op : Opcode} {bytes : List Byte} {e : DecodeError}
    (h : decodeOperands op bytes = .error e) : e = .truncated := by
  cases op with
  | HALT | LOOP | SETALL | SETNONE => cases h
  | WAIT | LOAD | JUMP => exact eq_truncated_of_operand1 h
  | STORE | JUMPIF | SCRATCH_STORE | SCRATCH_LOAD | SCRATCH_COPY | SCRATCH_JUMPIF | NOT | SHL | SHR =>
    exact eq_truncated_of_operand2 h
  | ADD | SUB | AND | OR | XOR | SCRATCH_ADD => exact eq_truncated_of_operand3 h
  | SET | CLEAR => exact eq_truncated_of_operandPairs h

/-! ## The decoder -/

/-- The opcode byte alone selects the row (R80). -/
theorem decode_byte_cons (op : Opcode) (bytes : List Byte) : decode (op.byte :: bytes) = decodeOperands op bytes := by
  rw [decode, Opcode.ofByte_byte]

/-- The round trip in both directions. -/
theorem decode_eq_ok {bytes rest : List Byte} {i : Instr} :
    decode bytes = .ok (i, rest) ↔ i.WellFormed ∧ bytes = encode i ++ rest := by
  constructor
  · intro h
    cases bytes with
    | nil => cases h
    | cons b tail =>
      cases hop : Opcode.ofByte b with
      | none => rw [decode, hop] at h; cases h
      | some op =>
        obtain rfl := Opcode.byte_of_ofByte hop
        rw [decode_byte_cons] at h
        obtain ⟨rfl, hwf, rfl⟩ := decodeOperands_eq_ok.mp h
        exact ⟨hwf, rfl⟩
  · rintro ⟨hwf, rfl⟩
    rw [encode, List.cons_append, decode_byte_cons]
    exact decodeOperands_eq_ok.mpr ⟨rfl, hwf, rfl⟩

/-- Settles O2: the round trip from an instruction. -/
theorem decodeOfEncodeIsTheInstruction : Obligations.DecodeOfEncodeIsTheInstruction :=
  fun _ _ hwf => decode_eq_ok.mpr ⟨hwf, rfl⟩

/-- Settles O3: the round trip from the bytes. -/
theorem decodedBytesAreTheEncoding : Obligations.DecodedBytesAreTheEncoding :=
  fun _ _ _ => decode_eq_ok.mp

/-! ## The bytes that are no opcode -/

/-- A finite table: every byte outside the three illegal ranges of R87 is in a row of the opcode map. -/
theorem illegalByte_of_ofByte : ∀ b : Byte, Opcode.ofByte b = none → illegalByte b := by decide

theorem ofByte_eq_none_iff {b : Byte} : Opcode.ofByte b = none ↔ illegalByte b :=
  ⟨illegalByte_of_ofByte b, ofByte_of_illegalByte⟩

/-- A byte of the opcode map is never rejected as an opcode, whatever its operands. -/
theorem decode_eq_unknownOpcode_iff {b : Byte} {rest : List Byte} :
    decode (b :: rest) = .error (.unknownOpcode b) ↔ illegalByte b := by
  refine ⟨fun h => ?_, fun hb => decode_of_illegalByte hb rest⟩
  cases hop : Opcode.ofByte b with
  | none => exact ofByte_eq_none_iff.mp hop
  | some op =>
    rw [decode, hop] at h
    cases eq_truncated_of_decodeOperands h

/-- Settles O4. -/
theorem illegalBytesRaiseUnknownOpcode : Obligations.IllegalBytesRaiseUnknownOpcode :=
  ⟨fun _ _ => decode_eq_unknownOpcode_iff, fun _ => State.step_of_illegalByte⟩

/-- Settles O1: five encodings and one byte of the illegal ranges. -/
theorem decodeReadsTheSpecsWords : Obligations.DecodeReadsTheSpecsWords :=
  ⟨decode_eq_ok.mpr (by decide), decode_eq_ok.mpr (by decide), decode_eq_ok.mpr (by decide),
    decode_eq_ok.mpr (by decide), decode_eq_ok.mpr (by decide), decode_eq_unknownOpcode_iff.mpr (by decide)⟩

end Sys2Proof.Machine

/-! PROOF. What the assembler emits for a statement is one instruction of its row (30_encoding.md R99, R100). -/

namespace Sys2Proof.Machine

theorem exists_ok_of_map_eq_ok {ε α β : Type} {f : α → β} {r : Except ε α} {b : β} (h : r.map f = .ok b) :
    ∃ a, r = .ok a ∧ f a = b := by
  cases r with
  | error p => cases h
  | ok a => cases h; exact ⟨a, rfl, rfl⟩

/-- The integers of a statement: one for each operand of the row, in the range of its kind. -/
theorem operands_inRange_of_assembleOperands {size : MemSize} {kinds : List OperandKind} {toks : List (List Char)}
    {ns : List Nat} (h : assembleOperands size kinds toks = .ok ns) :
    List.Forall₂ (fun kind n => n < kind.bound size) kinds ns := by
  induction kinds generalizing toks ns with
  | nil =>
    cases toks with
    | nil => cases h; exact .nil
    | cons tok toks => cases h
  | cons kind kinds ih =>
    cases toks with
    | nil => cases h
    | cons tok toks =>
      rw [assembleOperands] at h
      split at h
      · cases h
      · next n _ =>
        split at h
        · cases h
        · next hn =>
          obtain ⟨ms, hms, rfl⟩ := exists_ok_of_map_eq_ok h
          exact .cons (by omega) (ih hms)

/-- The bytes of an accepted pair list are pairs laid out. -/
theorem exists_pairBytes_of_assemblePairs {parts : List (List Char)} {bytes : List Byte}
    (h : assemblePairs parts = .ok bytes) : ∃ pairs, bytes = pairBytes pairs := by
  induction parts generalizing bytes with
  | nil => cases h; exact ⟨[], rfl⟩
  | cons part parts ih =>
    rw [assemblePairs] at h
    split at h
    · next tx ty _ =>
      split at h
      · next x y _ _ =>
        split at h
        · cases h
        · obtain ⟨tail, htail, rfl⟩ := exists_ok_of_map_eq_ok h
          obtain ⟨pairs, rfl⟩ := ih htail
          exact ⟨(BitVec.ofNat 8 x, BitVec.ofNat 8 y) :: pairs, rfl⟩
      · cases h
      · cases h
    · cases h

/-- What an accepted statement of `SET` or `CLEAR` emits, and what any other does. -/
theorem assembleStatement_cases {size : MemSize} {op : Opcode} {text : List Char} {bytes : List Byte}
    (h : assembleStatement size op text = .ok bytes) :
    ((op = .SET ∨ op = .CLEAR) ∧ ∃ pairs, bytes = op.byte :: countedPairs pairs) ∨
    (¬(op = .SET ∨ op = .CLEAR) ∧
      ∃ operands, operands.length = (operandKinds op).length ∧ bytes = op.byte :: operands) := by
  unfold assembleStatement at h
  split at h
  · next hop =>
    split at h
    · cases h
    · obtain ⟨laid, hlaid, rfl⟩ := exists_ok_of_map_eq_ok h
      obtain ⟨pairs, rfl⟩ := exists_pairBytes_of_assemblePairs hlaid
      exact .inl ⟨hop, pairs, by simp [countedPairs, length_pairBytes]⟩
  · next hop =>
    obtain ⟨ns, hns, rfl⟩ := exists_ok_of_map_eq_ok h
    refine .inr ⟨hop, ns.map (BitVec.ofNat 8), ?_, rfl⟩
    rw [List.length_map, (operands_inRange_of_assembleOperands hns).length_eq]

/-- The operand kinds of a statement agree with the format of its row: that many bytes are read, and no more. -/
theorem exists_decodeOperands_of_length {op : Opcode} {operands : List Byte} (hop : ¬(op = .SET ∨ op = .CLEAR))
    (hlen : operands.length = (operandKinds op).length) : ∃ i, decodeOperands op operands = .ok (i, []) := by
  cases op with
  | SET | CLEAR => simp at hop
  | HALT | LOOP | SETALL | SETNONE =>
    obtain rfl := List.length_eq_zero_iff.mp hlen
    exact ⟨_, rfl⟩
  | WAIT | LOAD | JUMP =>
    obtain ⟨a, rfl⟩ := List.length_eq_one_iff.mp hlen
    exact ⟨_, rfl⟩
  | STORE | JUMPIF | SCRATCH_STORE | SCRATCH_LOAD | SCRATCH_COPY | SCRATCH_JUMPIF | NOT | SHL | SHR =>
    obtain ⟨a, b, rfl⟩ := List.length_eq_two.mp hlen
    exact ⟨_, rfl⟩
  | ADD | SUB | AND | OR | XOR | SCRATCH_ADD =>
    obtain ⟨a, b, c, rfl⟩ := List.length_eq_three.mp hlen
    exact ⟨_, rfl⟩

/-- Pairs that fit the count byte read as one instruction of a row with pairs. -/
theorem exists_decodeOperands_countedPairs {op : Opcode} {pairs : List (Byte × Byte)} (hop : op = .SET ∨ op = .CLEAR)
    (hfits : countFits pairs = true) : ∃ i, decodeOperands op (countedPairs pairs) = .ok (i, []) := by
  rcases hop with rfl | rfl
  · exact ⟨.set pairs, decodeOperands_eq_ok.mpr ⟨rfl, hfits, (List.append_nil _).symm⟩⟩
  · exact ⟨.clear pairs, decodeOperands_eq_ok.mpr ⟨rfl, hfits, (List.append_nil _).symm⟩⟩

/-- Settles O5: the operand bytes fit the format of the row, and 256 bytes hold no more than 127 pairs. -/
theorem assembledStatementDecodesToItsRow : Obligations.AssembledStatementDecodesToItsRow := by
  intro size op text bytes h hlen
  obtain ⟨operands, rfl, i, hi⟩ :
      ∃ operands, bytes = op.byte :: operands ∧ ∃ i, decodeOperands op operands = .ok (i, []) := by
    rcases assembleStatement_cases h with ⟨hop, pairs, rfl⟩ | ⟨hop, operands, hn, rfl⟩
    · have hfits : countFits pairs = true := by
        simp only [List.length_cons, countedPairs, length_pairBytes] at hlen
        simp only [countFits, decide_eq_true_eq]
        omega
      exact ⟨_, rfl, exists_decodeOperands_countedPairs hop hfits⟩
    · exact ⟨_, rfl, exists_decodeOperands_of_length hop hn⟩
  obtain ⟨hrow, hwf, -⟩ := decodeOperands_eq_ok.mp hi
  exact ⟨i, (decode_byte_cons op operands).trans hi, hrow, hwf⟩

end Sys2Proof.Machine

/-! PROOF. A Load of a program text takes the image and the entry point the assembler leaves (30_encoding.md R101 to
R104; 50_interfaces.md R203, R204). -/

namespace Sys2Proof.Machine

/-! ## What every line keeps of the assembly -/

/-- The assembly can be loaded by a machine of this size: its image is exactly `MEM_SIZE` bytes, its entry point an
address. -/
structure Assembly.FitsSize (a : Assembly) (size : MemSize) : Prop where
  size_eq : a.size = size
  image_length : a.image.length = Config.memBytes size
  entryPoint_lt : a.entryPoint < Config.memBytes size

section -- lines
variable {a b : Assembly} {size : MemSize} {text : List Char}

theorem Assembly.start_fitsSize (size : MemSize) : (Assembly.start size).FitsSize size where
  size_eq := rfl
  image_length := List.length_replicate
  entryPoint_lt := by cases size <;> decide

/-- The bytes replace as many of the image, since they all lie below its end (R101). -/
theorem Assembly.FitsSize.of_emitBytes {n : Nat} {bytes : List Byte} (h : a.FitsSize size)
    (hb : a.emitBytes n bytes = .ok b) : b.FitsSize size := by
  obtain ⟨rfl, hlen, hep⟩ := h
  unfold Assembly.emitBytes at hb
  split at hb <;> cases hb
  refine ⟨rfl, ?_, hep⟩
  simp only [List.length_append, List.length_take, List.length_drop, hlen]
  omega

/-- The operand of `EP` is checked against `MEM_SIZE` (R98). -/
theorem Assembly.FitsSize.of_entry (h : a.FitsSize size) (hb : a.entry text = .ok b) :
    b.FitsSize size := by
  obtain ⟨rfl, hlen, -⟩ := h
  unfold Assembly.entry at hb
  split at hb <;> cases hb
  next addr haddr =>
  cases operands_inRange_of_assembleOperands haddr with
  | cons hlt _ => exact ⟨rfl, hlen, hlt⟩

theorem eq_ok_of_withoutComment {operands : List Char} {result : Except LineProblem Assembly}
    (h : withoutComment operands result = .ok b) : result = .ok b := by
  unfold withoutComment at h
  split at h
  · cases h
  · exact h

/-- Everything an accepted line can do: nothing, set the entry point, or emit the bytes of a statement (R95, R96). -/
theorem Assembly.line_cases {n : Nat} (h : a.line n text = .ok b) :
    b = a ∨ (∃ operands, a.entry operands = .ok b) ∨ (∃ bytes, a.emitBytes n bytes = .ok b) := by
  unfold Assembly.line at h
  split at h
  · cases h; exact .inl rfl
  · split at h
    · cases h; exact .inl rfl
    · dsimp only at h
      split at h
      · exact .inr (.inl ⟨_, eq_ok_of_withoutComment h⟩)
      · split at h
        · cases h
        · have hstatement := eq_ok_of_withoutComment h
          split at hstatement
          · cases hstatement
          · exact .inr (.inr ⟨_, hstatement⟩)

theorem Assembly.FitsSize.of_line {n : Nat} (h : a.FitsSize size) (hb : a.line n text = .ok b) :
    b.FitsSize size := by
  rcases Assembly.line_cases hb with rfl | ⟨_, hentry⟩ | ⟨_, hemit⟩
  · exact h
  · exact h.of_entry hentry
  · exact h.of_emitBytes hemit

/-- What the assembler leaves for the Load: all of the text, or the lines before the rejected one (R103). -/
def AsmResult.assembly? : AsmResult → Option Assembly
  | .success a => some a
  | .failure a _ _ => some a
  | .undefined _ _ => none

theorem Assembly.FitsSize.of_lines {n : Nat} {texts : List (List Char)} (h : a.FitsSize size)
    (hb : (a.lines n texts).assembly? = some b) : b.FitsSize size := by
  induction texts generalizing a n with
  | nil => cases hb; exact h
  | cons text texts ih =>
    rw [Assembly.lines] at hb
    split at hb
    · next c hline => exact ih (h.of_line hline) hb
    · cases hb; exact h
    · cases hb

theorem fitsSize_of_assemble (hb : (assemble size text).assembly? = some b) : b.FitsSize size :=
  (Assembly.start_fitsSize size).of_lines hb

theorem fitsSize_of_success (h : assemble size text = .success a) : a.FitsSize size :=
  fitsSize_of_assemble (by rw [h, AsmResult.assembly?])

theorem fitsSize_of_failure {line : Nat} {kind : AsmErrorKind} (h : assemble size text = .failure a line kind) :
    a.FitsSize size :=
  fitsSize_of_assemble (by rw [h, AsmResult.assembly?])

end

/-! ## The Load -/

namespace State

variable {s : State} {text : List Char} {a : Assembly}

/-- The machine a successful Load leaves (50_interfaces.md R203). -/
def launched (s : State) (image : List Byte) (ep : Nat) : State :=
  { s with
    memory := Memory.ofImage image, entryPoint := BitVec.ofNat 8 ep, pc := BitVec.ofNat 9 ep
    delayRemaining := 0, delayTotal := 0, running := true, error := .none }

theorem load_of_fits {image : List Byte} {ep : Nat} (hlen : image.length = s.memBytes) (hep : ep < s.memBytes) :
    s.load image ep = some (s.launched image ep) :=
  if_pos ⟨hlen, hep⟩

/-- A legal entry point fits the 9 bits of `pc`. -/
theorem launched_pc_toNat {ep : Nat} (hep : ep < s.memBytes) (image : List Byte) :
    (s.launched image ep).pc.toNat = ep := by
  have hsize := s.memBytes_bounds.2
  rw [launched, BitVec.toNat_ofNat]
  omega

/-- No accepted text is refused: its assembly meets the conditions of U12. -/
theorem loadProgram_of_success (h : assemble s.memSize text = .success a) :
    s.loadProgram text = .loaded (s.launched a.image a.entryPoint) := by
  obtain ⟨-, hlen, hep⟩ := fitsSize_of_success h
  rw [loadProgram, h]
  simp only [load_of_fits hlen hep]

theorem loadProgram_of_failure {line : Nat} {kind : AsmErrorKind} (h : assemble s.memSize text = .failure a line kind) :
    s.loadProgram text = .failed (s.loadFailed a.image a.entryPoint) line kind := by
  rw [loadProgram, h]

end State

/-- Settles O50, by what every line keeps of the assembly. -/
theorem assembledProgramIsLoadedOrRejected : Obligations.AssembledProgramIsLoadedOrRejected := by
  intro s text
  refine ⟨fun a h => ?_, fun a line kind h => ?_⟩
  · obtain ⟨-, hlen, hep⟩ := fitsSize_of_success h
    have hpc := State.launched_pc_toNat hep a.image
    exact ⟨_, State.loadProgram_of_success h, rfl, rfl, ⟨rfl, rfl, hpc.trans_lt hep⟩, rfl, hpc,
      State.toNat_ofNat_entryPoint hep, hlen, Memory.read_ofImage a.image, rfl, rfl, rfl, rfl, rfl⟩
  · have hep := (fitsSize_of_failure h).entryPoint_lt
    exact ⟨_, State.loadProgram_of_failure h, rfl, rfl, rfl, rfl, rfl, State.toNat_ofNat_entryPoint hep,
      Memory.read_ofImage a.image, rfl, rfl, rfl, rfl, rfl⟩

end Sys2Proof.Machine

/-! PROOF. What ends a step before the fetch: the halted gate, a wait tick, a program counter beyond memory
(40_step_cycle.md R121 to R123). -/

namespace Sys2Proof.Machine

namespace State

variable {s : State}

/-! ## A step that does not dispatch -/

theorem step_of_halted (hrun : s.running = false) : step s = .next s := by
  rw [step, beforeDispatch, if_pos hrun]

theorem step_of_waiting (hrun : s.running = true) (hrem : s.delayRemaining ≠ 0) : step s = .next s.waitTick := by
  rw [step, beforeDispatch, if_neg (by simp [hrun]), if_pos hrem]

theorem step_of_pc_beyond (hrun : s.running = true) (hrem : s.delayRemaining = 0) (hpc : s.memBytes ≤ s.pc.toNat) :
    step s = .next (s.raise .pcOutOfRange) := by
  rw [step, beforeDispatch, if_neg (by simp [hrun]), if_neg (not_not_intro hrem), if_pos hpc]

end State

/-- Settles O10. -/
theorem haltedStepDoesNothing : Obligations.HaltedStepDoesNothing :=
  fun _ => State.step_of_halted

/-- Settles O12: the tick neither reads memory nor looks at `pc`. -/
theorem waitTickCountsDown : Obligations.WaitTickCountsDown := by
  intro s hrun hrem
  have hcount : s.waitTick.delayRemaining.toNat + 1 = s.delayRemaining.toNat := by
    rw [State.waitTick_delayRemaining]
    bv_omega
  have htotal : if s.waitTick.delayRemaining = 0 then s.waitTick.delayTotal = 0
      else s.waitTick.delayTotal = s.delayTotal := by
    split
    · next hlast => exact if_pos hlast
    · next hmore => exact if_neg hmore
  exact ⟨s.waitTick, State.step_of_waiting hrun hrem, hcount, htotal, rfl, fun _ => rfl, rfl, ⟨rfl, rfl⟩, ⟨rfl, rfl⟩,
    ⟨rfl, rfl, rfl⟩, fun m => State.step_of_waiting (s := { s with memory := m }) hrun hrem,
    fun hlast hpc => State.step_of_pc_beyond hrun hlast hpc⟩

end Sys2Proof.Machine

/-! PROOF. A step runs the instruction whose bytes memory holds at `pc`, and no byte behind the end of memory has an
effect (40_step_cycle.md R120, R124, R126). -/

namespace Sys2Proof.Machine

/-! ## Decoding with more bytes behind -/

section
variable {bytes more rest : List Byte} {i : Instr}

theorem decode_append_of_ok (h : decode bytes = .ok (i, rest)) (more : List Byte) :
    decode (bytes ++ more) = .ok (i, rest ++ more) := by
  obtain ⟨hwf, rfl⟩ := decode_eq_ok.mp h
  exact decode_eq_ok.mpr ⟨hwf, List.append_assoc ..⟩

/-- Every byte is either in a row of the opcode map or one of the 232 (30_encoding.md R86, R87). -/
theorem opcode_or_illegalByte (b : Byte) : (∃ op : Opcode, op.byte = b) ∨ illegalByte b := by
  cases hop : Opcode.ofByte b with
  | some op => exact .inl ⟨op, Opcode.byte_of_ofByte hop⟩
  | none => exact .inr (ofByte_eq_none_iff.mp hop)

/-- The longest operands are a count byte and 255 pairs, 511 bytes (R83). -/
theorem exists_operandPairs_of_le_length {make : List (Byte × Byte) → Instr} (h : 511 ≤ bytes.length) :
    ∃ i rest, operandPairs make bytes = .ok (i, rest) := by
  obtain ⟨count, tail, rfl⟩ := List.exists_cons_of_length_pos (by omega : 0 < bytes.length)
  cases htake : takePairs count.toNat tail with
  | some r => exact ⟨make r.1, r.2, by rw [operandPairs, htake]⟩
  | none =>
    have hshort := takePairs_none htake
    rw [List.length_cons] at h
    omega

theorem exists_decodeOperands_of_le_length (op : Opcode) (h : 511 ≤ bytes.length) :
    ∃ i rest, decodeOperands op bytes = .ok (i, rest) :=
  match bytes, h with
  | a :: b :: c :: tail, h => by
    cases op with
    | SET | CLEAR => exact exists_operandPairs_of_le_length h
    | _ => exact ⟨_, _, rfl⟩

/-- A truncated instruction is completed by any bytes that are enough, and reaches into them. -/
theorem exists_decode_append_of_truncated (h : decode bytes = .error .truncated) (hmore : 511 ≤ more.length) :
    ∃ i rest, decode (bytes ++ more) = .ok (i, rest) ∧ bytes.length < (encode i).length := by
  obtain ⟨i, rest, hdec⟩ : ∃ i rest, decode (bytes ++ more) = .ok (i, rest) := by
    cases bytes with
    | nil => cases h
    | cons b tail =>
      rcases opcode_or_illegalByte b with ⟨op, rfl⟩ | hb
      · rw [List.cons_append, decode_byte_cons]
        exact exists_decodeOperands_of_le_length op (by rw [List.length_append]; omega)
      · cases (decode_of_illegalByte hb tail).symm.trans h
  refine ⟨i, rest, hdec, ?_⟩
  by_contra hle
  obtain ⟨hwf, heq⟩ := decode_eq_ok.mp hdec
  have hencode : encode i <+: bytes ++ more := ⟨rest, heq.symm⟩
  obtain ⟨tail, hprefix⟩ : encode i <+: bytes :=
    List.prefix_of_prefix_length_le hencode (List.prefix_append bytes more) (by omega)
  cases (decode_eq_ok.mpr ⟨hwf, hprefix.symm⟩).symm.trans h

end

/-! ## The check that the operands exist -/

namespace State

variable {s : State}

theorem checked_of_lacking {ops : List Operand} (h : s.memBytes ≤ s.pc.toNat + ops.length) (effect : State) :
    s.checked ops effect = .next (s.raise .argsOutOfRange) := by
  rcases s.checked_cases ops effect with ⟨-, hc⟩ | ⟨hlen, -⟩
  · exact hc
  · omega

/-- `SET` and `CLEAR` check all pair bytes before any event (D14, log 17). -/
theorem draw_of_lacking {pairs : List (Byte × Byte)} (h : s.memBytes ≤ s.pc.toNat + (1 + 2 * pairs.length))
    (on : Bool) : s.draw on pairs = .next (s.raise .argsOutOfRange) := by
  rcases s.draw_cases on pairs with ⟨-, hc⟩ | ⟨hlen, -⟩
  · exact hc
  · omega

end State

/-- An instruction that ends beyond memory, its opcode byte inside, has operands and lacks some (R126). -/
theorem exec_of_lacking {i : Instr} {s : State} (hpc : s.pc.toNat < s.memBytes)
    (h : s.memBytes < s.pc.toNat + (encode i).length) : exec i s = .next (s.raise .argsOutOfRange) := by
  cases i with
  | halt | loop | setall | setnone => exact absurd h (Nat.not_lt.mpr hpc)
  | set pairs =>
    rw [(Laws.EncodedLength.set pairs).1, specLength] at h
    exact State.draw_of_lacking (by omega) true
  | clear pairs =>
    rw [(Laws.EncodedLength.clear pairs).1, specLength] at h
    exact State.draw_of_lacking (by omega) false
  | _ => exact State.checked_of_lacking (Nat.le_of_lt_succ h) _

/-! ## The step -/

namespace State

variable {s : State}

theorem memoryFromPc_length : s.memoryFromPc.length = s.memBytes - s.pc.toNat := Memory.length_bytes ..

/-- What the bytes of memory from `pc` on can be: a whole instruction, no opcode, or a truncated instruction. -/
theorem decode_memoryFromPc_cases (hd : s.Dispatching) :
    (∃ i rest, decode s.memoryFromPc = .ok (i, rest)) ∨ illegalByte (s.memory.read s.pc.toNat) ∨
      decode s.memoryFromPc = .error .truncated := by
  obtain ⟨tail, hfrom⟩ := List.head?_eq_some_iff.mp (memoryFromPc_head? hd.pc_lt)
  rcases opcode_or_illegalByte (s.memory.read s.pc.toNat) with ⟨op, hop⟩ | hb
  · rw [hfrom, ← hop, decode_byte_cons]
    cases hdec : decodeOperands op tail with
    | ok r => exact .inl ⟨r.1, r.2, rfl⟩
    | error e => rw [eq_truncated_of_decodeOperands hdec]; exact .inr (.inr rfl)
  · exact .inr (.inl hb)

theorem decode_memoryFromPc_append_of_illegalByte (hd : s.Dispatching) (hb : illegalByte (s.memory.read s.pc.toNat))
    (more : List Byte) :
    decode (s.memoryFromPc ++ more) = .error (.unknownOpcode (s.memory.read s.pc.toNat)) := by
  obtain ⟨tail, hfrom⟩ := List.head?_eq_some_iff.mp (memoryFromPc_head? hd.pc_lt)
  rw [hfrom, List.cons_append, decode_of_illegalByte hb]

theorem step_of_decode_ok {i : Instr} {rest : List Byte} (hd : s.Dispatching)
    (h : decode s.fetchBytes = .ok (i, rest)) : step s = exec i s :=
  step_of_fetchDecode_ok hd (fetchDecode_of_decode_ok h)

/-- A whole instruction in memory is what the fetch finds, whatever the placeholders. -/
theorem step_of_decode_memory {i : Instr} {rest : List Byte} (hd : s.Dispatching)
    (h : decode s.memoryFromPc = .ok (i, rest)) : step s = exec i s :=
  step_of_decode_ok hd (decode_append_of_ok h _)

theorem exec_of_memory_shorter {i : Instr} (hd : s.Dispatching) (h : s.memoryFromPc.length < (encode i).length) :
    exec i s = .next (s.raise .argsOutOfRange) := by
  rw [memoryFromPc_length] at h
  exact exec_of_lacking hd.pc_lt (by omega)

/-- There are enough placeholders for the longest instruction (log 9). -/
theorem exists_decode_fetchBytes_of_truncated (h : decode s.memoryFromPc = .error .truncated) :
    ∃ i rest, decode s.fetchBytes = .ok (i, rest) ∧ s.memoryFromPc.length < (encode i).length :=
  exists_decode_append_of_truncated h (by rw [List.length_replicate]; decide)

theorem step_of_truncated (hd : s.Dispatching) (h : decode s.memoryFromPc = .error .truncated) :
    step s = .next (s.raise .argsOutOfRange) := by
  obtain ⟨i, rest, hdec, hlen⟩ := exists_decode_fetchBytes_of_truncated h
  rw [step_of_decode_ok hd hdec, exec_of_memory_shorter hd hlen]

/-- The one error of a fetch inside memory is that of a byte that is no opcode (R125). -/
theorem fetchDecode_error_eq {e : ErrorCode} (hd : s.Dispatching) (h : s.fetchDecode = .error e) :
    e = .unknownOpcode := by
  rcases decode_memoryFromPc_cases hd with ⟨i, rest, hok⟩ | hb | htrunc
  · cases (fetchDecode_of_decode_ok (decode_append_of_ok hok _)).symm.trans h
  · cases (fetchDecode_of_illegalByte hd.pc_lt hb).symm.trans h
    rfl
  · obtain ⟨i, rest, hok, -⟩ := exists_decode_fetchBytes_of_truncated htrunc
    cases (fetchDecode_of_decode_ok hok).symm.trans h

end State

/-- Settles O6. -/
theorem stepRunsTheDecodedInstruction : Obligations.StepRunsTheDecodedInstruction :=
  fun _ _ _ => State.step_of_decode_ok

/-- Settles O7: the encoding is the front of the fetch, and decodes to the instruction. -/
theorem stepRunsTheInstructionInMemory : Obligations.StepRunsTheInstructionInMemory := by
  intro s i hd hwf hlen hbytes
  have hfrom := State.memoryFromPc_eq_append hlen
  rw [hbytes] at hfrom
  exact State.step_of_decode_memory hd (decode_eq_ok.mpr ⟨hwf, hfrom⟩)

/-- Settles O8: with the placeholders a whole instruction decodes, whose handler finds that operands are missing. -/
theorem truncatedInstructionRaisesArgsOutOfRange : Obligations.TruncatedInstructionRaisesArgsOutOfRange :=
  fun _ => State.step_of_truncated

/-- Settles O9, by what the bytes of memory alone decode to. -/
theorem bytesBeyondMemoryHaveNoEffect : Obligations.BytesBeyondMemoryHaveNoEffect := by
  intro s beyond hd hbeyond
  rcases State.decode_memoryFromPc_cases hd with ⟨i, rest, hok⟩ | hb | htrunc
  · rw [decode_append_of_ok hok]
    exact State.step_of_decode_memory hd hok
  · rw [State.decode_memoryFromPc_append_of_illegalByte hd hb]
    exact State.step_of_illegalByte hd hb
  · obtain ⟨i, rest, hok, hlen⟩ := exists_decode_append_of_truncated htrunc hbeyond
    rw [hok]
    exact (State.step_of_truncated hd htrunc).trans (State.exec_of_memory_shorter hd hlen).symm

end Sys2Proof.Machine

/-! PROOF. Only the check before the fetch raises `PcOutOfRange` (40_step_cycle.md R123). -/

namespace Sys2Proof.Machine

/-- The errors a handler can raise: the checks of 40_step_cycle.md R126 to R129. -/
def ErrorCode.ofHandler : ErrorCode → Bool
  | .argsOutOfRange | .badMemAddr | .badScratchAddr | .badCoord => true
  | .none | .asmError | .pcOutOfRange | .unknownOpcode => false

theorem ofHandler_of_operandError {op : Operand} {size : Nat} {e : ErrorCode} (h : op.error size = some e) :
    e.ofHandler = true := by
  cases op with
  | mem a | scr a | coord a =>
    obtain ⟨-, he⟩ := Option.ite_none_right_eq_some.mp h
    cases he
    rfl
  | target a | value a | count a => cases h

theorem ofHandler_of_firstError {size : Nat} {ops : List Operand} {e : ErrorCode} (h : firstError size ops = some e) :
    e.ofHandler = true := by
  induction ops with
  | nil => cases h
  | cons op rest ih =>
    rw [firstError_cons, Option.or_eq_some_iff] at h
    rcases h with hop | ⟨-, hrest⟩
    · exact ofHandler_of_operandError hop
    · exact ih hrest

namespace State

/-- `t` has the error code of `s`, or one that a handler raised. -/
def ErrorByHandler (s t : State) : Prop :=
  t.error = s.error ∨ t.error.ofHandler = true

variable {s t : State}

theorem emitAll_error (s : State) (events : List Event) : (s.emitAll events).error = s.error := by
  obtain ⟨trace, display, store, heq⟩ := s.emitAll_eq events
  rw [heq]

theorem branchIf_error (s : State) (tested target : Byte) : (s.branchIf tested target).error = s.error := by
  rcases s.branchIf_cases tested target with ⟨-, hb⟩ | ⟨-, hb⟩ <;> rw [hb] <;> rfl

theorem ErrorByHandler.of_checked {ops : List Operand} {effect : State} (ht : s.checked ops effect = .next t)
    (heffect : effect.error = s.error) : s.ErrorByHandler t := by
  rcases s.checked_cases ops effect with ⟨-, hc⟩ | ⟨-, ⟨e, he, hc⟩ | ⟨-, hc⟩⟩ <;> cases hc.symm.trans ht
  · exact .inr rfl
  · exact .inr (ofHandler_of_firstError he)
  · exact .inl heffect

theorem ErrorByHandler.of_draw {on : Bool} {pairs : List (Byte × Byte)} (ht : s.draw on pairs = .next t) :
    s.ErrorByHandler t := by
  rcases s.draw_cases on pairs with ⟨-, hc⟩ | ⟨-, ⟨-, hc⟩ | ⟨-, hc⟩⟩ <;> cases hc.symm.trans ht
  · exact .inr rfl
  · exact .inl (s.emitAll_error _)
  · exact .inr rfl

end State

open State (ErrorByHandler)

/-- No instruction's effect writes the error register; its checks may. -/
theorem exec_errorByHandler {i : Instr} {s t : State} (ht : exec i s = .next t) : s.ErrorByHandler t := by
  cases i with
  | halt | loop | setnone => cases ht; exact .inl rfl
  | setall => cases ht; exact .inl (s.emitAll_error allOnEvents)
  | set pairs | clear pairs => exact ErrorByHandler.of_draw ht
  | jumpif addr testAddr => exact ErrorByHandler.of_checked ht (s.branchIf_error _ addr)
  | scratchJumpif addr x => exact ErrorByHandler.of_checked ht (s.branchIf_error _ addr)
  | _ => exact ErrorByHandler.of_checked ht rfl

/-- Settles O13, the second part by the cases of what a step can do. -/
theorem pcBeyondMemoryRaisesPcOutOfRange : Obligations.PcBeyondMemoryRaisesPcOutOfRange := by
  refine ⟨fun _ => State.step_of_pc_beyond, fun s t hs ht herr => ?_⟩
  rcases step_cases ht with ⟨-, rfl⟩ | ⟨-, -, rfl⟩ | ⟨-, -, hpc, -⟩ | ⟨hd, ⟨e, he, rfl⟩ | ⟨i, -, hexec⟩⟩
  · exact absurd herr hs
  · exact absurd herr hs
  · exact hpc
  · cases (State.fetchDecode_error_eq hd he).symm.trans herr
  · rcases exec_errorByHandler hexec with hkept | hraised
    · exact absurd (hkept.symm.trans herr) hs
    · rw [herr] at hraised
      cases hraised

end Sys2Proof.Machine

/-! PROOF. The control instructions: `HALT`, `LOOP`, `JUMP` and the two conditional branches, `WAIT` and the wait it
starts (41_control.md R140 to R146, 40_step_cycle.md R122). -/

namespace Sys2Proof.Machine

namespace State

variable {s : State}

/-! ## Handlers and branches -/

/-- A handler whose operands exist raises the first error among their checks. -/
theorem checked_of_firstError {ops : List Operand} {e : ErrorCode} (hlen : s.pc.toNat + ops.length < s.memBytes)
    (herr : firstError s.memBytes ops = some e) (effect : State) : s.checked ops effect = .next (s.raise e) := by
  rcases s.checked_cases ops effect with ⟨hlack, -⟩ | ⟨-, ⟨e', herr', hraise⟩ | ⟨hok, -⟩⟩
  · omega
  · cases herr.symm.trans herr'
    exact hraise
  · cases herr.symm.trans hok

/-- Nothing but `pc` differs between the two states. -/
def MovesOnlyPc (s t : State) : Prop :=
  s.SameMemory t ∧ t.scratch = s.scratch ∧ s.SameControl t ∧ s.SamePorts t

theorem movesOnlyPc_set_pc (s : State) (pc : PcWord) : s.MovesOnlyPc { s with pc := pc } :=
  ⟨fun _ => rfl, rfl, ⟨⟨rfl, rfl⟩, ⟨rfl, rfl⟩, rfl, rfl⟩, rfl, rfl, rfl⟩

theorem jumpTo_movesOnlyPc (s : State) (target : Byte) : s.MovesOnlyPc (s.jumpTo target) :=
  s.movesOnlyPc_set_pc (target.setWidth 9)

theorem advance_movesOnlyPc (s : State) (n : Nat) : s.MovesOnlyPc (s.advance n) :=
  s.movesOnlyPc_set_pc (BitVec.ofNat 9 (s.pc.toNat + n))

theorem branchIf_movesOnlyPc (s : State) (tested target : Byte) : s.MovesOnlyPc (s.branchIf tested target) := by
  rcases s.branchIf_cases tested target with ⟨-, hb⟩ | ⟨-, hb⟩ <;> rw [hb]
  · exact s.jumpTo_movesOnlyPc target
  · exact s.advance_movesOnlyPc 3

/-- `pc` has a bit more than a target byte, so no target is truncated (41_control.md R146). -/
theorem jumpTo_pc_toNat (s : State) (target : Byte) : (s.jumpTo target).pc.toNat = target.toNat := by
  rw [jumpTo_pc, BitVec.toNat_setWidth]
  omega

/-- A jump of an instruction to itself spins. -/
theorem jumpTo_of_toNat_eq_pc {target : Byte} (h : target.toNat = s.pc.toNat) : s.jumpTo target = s := by
  have hpc : target.setWidth 9 = s.pc := BitVec.eq_of_toNat_eq ((s.jumpTo_pc_toNat target).trans h)
  rw [jumpTo, hpc]

theorem branchIf_pc_toNat (hpc : s.pc.toNat + 3 ≤ s.memBytes) (tested target : Byte) :
    (s.branchIf tested target).pc.toNat = if 0 < tested.toNat then target.toNat else s.pc.toNat + 3 := by
  rcases s.branchIf_cases tested target with ⟨htest, hb⟩ | ⟨htest, hb⟩
  · rw [hb, if_pos htest, jumpTo_pc_toNat]
  · rw [hb, if_neg (by omega), advance_pc_toNat hpc]

/-! ## The effect of a control instruction whose operands exist -/

theorem exec_wait_of_lt (hpc : s.pc.toNat + 1 < s.memBytes) (n : Byte) :
    exec (.wait n) s = .next ((s.startWait n).advance 2) :=
  checked_of_ok hpc rfl _

theorem exec_jump_of_lt (hpc : s.pc.toNat + 1 < s.memBytes) (addr : Byte) :
    exec (.jump addr) s = .next (s.jumpTo addr) :=
  checked_of_ok hpc rfl _

theorem exec_jumpif_of_lt {testAddr : Byte} (hpc : s.pc.toNat + 2 < s.memBytes) (htest : testAddr.toNat < s.memBytes)
    (addr : Byte) : exec (.jumpif addr testAddr) s = .next (s.branchIf (s.readMem testAddr) addr) :=
  checked_of_ok hpc (by simp [firstError_cons, htest]) _

theorem exec_scratchJumpif_of_lt {i : Byte} (hpc : s.pc.toNat + 2 < s.memBytes) (hi : i.toNat < 8) (addr : Byte) :
    exec (.scratchJumpif addr i) s = .next (s.branchIf (s.readScratch i) addr) :=
  checked_of_ok hpc (by simp [firstError_cons, hi]) _

/-- A branch beyond memory is caught before the next fetch (40_step_cycle.md R123). -/
theorem step_of_wild_jumpTo {target : Byte} (hrun : s.running = true) (hrem : s.delayRemaining = 0)
    (hwild : s.memBytes ≤ target.toNat) :
    (s.jumpTo target).ErrorHalt .pcOutOfRange (step (s.jumpTo target)) :=
  step_of_pc_beyond hrun hrem (hwild.trans_eq (s.jumpTo_pc_toNat target).symm)

/-! ## A wait in progress -/

/-- `s` in a wait of `n` steps of which `k` are over: the last one clears `delayTotal` (R122). -/
def waiting (s : State) (n : Byte) (k : Nat) : State :=
  { s with
    delayRemaining := BitVec.ofNat 8 (n.toNat - k)
    delayTotal := if k = n.toNat then 0 else n }

theorem waiting_delayRemaining_toNat (s : State) (n : Byte) (k : Nat) :
    (s.waiting n k).delayRemaining.toNat = n.toNat - k := by
  rw [waiting, BitVec.toNat_ofNat]
  omega

/-- `WAIT 0` too: its total is the 0 a finished wait has. -/
theorem startWait_eq_waiting (s : State) (n : Byte) : s.startWait n = s.waiting n 0 := by
  have htotal : (if 0 = n.toNat then 0 else n) = n := by
    split
    · next hzero => exact BitVec.eq_of_toNat_eq hzero
    · rfl
  rw [waiting, htotal, Nat.sub_zero, BitVec.ofNat_toNat, BitVec.setWidth_eq, startWait]

theorem waitTick_waiting {n : Byte} {k : Nat} (hk : k < n.toNat) :
    (s.waiting n k).waitTick = s.waiting n (k + 1) := by
  have hcount : BitVec.ofNat 8 (n.toNat - k) - 1 = BitVec.ofNat 8 (n.toNat - (k + 1)) := by
    apply BitVec.eq_of_toNat_eq
    bv_omega
  have hlast : BitVec.ofNat 8 (n.toNat - (k + 1)) = 0 ↔ k + 1 = n.toNat := by bv_omega
  simp only [waitTick, waiting, hcount, hlast, if_neg hk.ne]

theorem step_waiting {n : Byte} {k : Nat} (hrun : s.running = true) (hk : k < n.toNat) :
    step (s.waiting n k) = .next (s.waiting n (k + 1)) := by
  have hrem : (s.waiting n k).delayRemaining ≠ 0 := by
    intro hzero
    have hcount : n.toNat - k = 0 := (s.waiting_delayRemaining_toNat n k).symm.trans (congrArg BitVec.toNat hzero)
    omega
  rw [← waitTick_waiting hk]
  exact step_of_waiting hrun hrem

end State

/-- A run takes its first step first. -/
theorem run_succ_of_step {M : Host.Core} {s t : M.State} (h : M.step s = .next t) (k : Nat) :
    M.run (k + 1) s = M.run k t := by
  rw [Host.Core.run, h]

theorem run_waiting {s : State} {n : Byte} {j k : Nat} (hrun : s.running = true) (hk : j + k ≤ n.toNat) :
    core.run k (s.waiting n j) = .next (s.waiting n (j + k)) := by
  induction k generalizing j with
  | zero => rfl
  | succ k ih =>
    calc
      core.run (k + 1) (s.waiting n j) = core.run k (s.waiting n (j + 1)) :=
        run_succ_of_step (M := core) (State.step_waiting hrun (by omega)) k
      _ = .next (s.waiting n (j + 1 + k)) := ih (by omega)
      _ = .next (s.waiting n (j + (k + 1))) := by rw [Nat.add_right_comm, Nat.add_assoc]

/-! ## The statements -/

/-- Settles O18: the step of the `WAIT` leaves a wait with no step over, and each further step is a tick. -/
theorem waitSuspendsDispatchForExactlyNSteps : Obligations.WaitSuspendsDispatchForExactlyNSteps := by
  intro s n k hd hpc hbytes hk
  have hstep : step s = .next ((s.advance 2).waiting n 0) := by
    rw [stepRunsTheInstructionInMemory s (.wait n) hd rfl hpc hbytes, State.exec_wait_of_lt hpc n,
      ← State.startWait_eq_waiting]
    rfl
  have hwait : core.run k ((s.advance 2).waiting n 0) = .next ((s.advance 2).waiting n (0 + k)) :=
    run_waiting hd.1 (by omega)
  rw [Nat.zero_add] at hwait
  have hrun : core.run (k + 1) s = .next ((s.advance 2).waiting n k) :=
    (run_succ_of_step (M := core) hstep k).trans hwait
  exact ⟨_, hrun, State.advance_pc_toNat hpc, State.waiting_delayRemaining_toNat _ n k, rfl, fun _ => rfl, rfl,
    ⟨rfl, rfl⟩, ⟨rfl, rfl⟩, rfl, rfl, rfl⟩

/-- Settles O20. -/
theorem jumpGoesToItsTarget : Obligations.JumpGoesToItsTarget := by
  refine fun addr => ⟨rfl, fun s => ?_⟩
  split
  · next hlack => exact State.checked_of_lacking hlack _
  · next hpc =>
    obtain ⟨hmem, hscratch, hcontrol, hports⟩ := s.jumpTo_movesOnlyPc addr
    exact ⟨_, State.exec_jump_of_lt (Nat.lt_of_not_le hpc) addr, s.jumpTo_pc_toNat addr, hmem, hscratch, hcontrol,
      hports, State.jumpTo_of_toNat_eq_pc, State.step_of_wild_jumpTo⟩

/-- Settles O21. -/
theorem jumpifTestsAMemoryByte : Obligations.JumpifTestsAMemoryByte := by
  refine fun addr testAddr => ⟨rfl, fun s => ?_⟩
  split
  · next hlack => exact State.checked_of_lacking hlack _
  · next hpc =>
    have hpc' : s.pc.toNat + 2 < s.memBytes := Nat.lt_of_not_le hpc
    split
    · next hbad => exact State.checked_of_firstError hpc' (by simp [firstError_cons, hbad]) _
    · next htest =>
      exact ⟨_, State.exec_jumpif_of_lt hpc' (Nat.lt_of_not_le htest) addr, State.branchIf_pc_toNat hpc' _ addr,
        s.branchIf_movesOnlyPc _ addr⟩

/-- Settles O22. -/
theorem scratchJumpifTestsAScratchRegister : Obligations.ScratchJumpifTestsAScratchRegister := by
  refine fun addr i => ⟨rfl, fun s => ?_⟩
  split
  · next hlack => exact State.checked_of_lacking hlack _
  · next hpc =>
    have hpc' : s.pc.toNat + 2 < s.memBytes := Nat.lt_of_not_le hpc
    split
    · next hi =>
      rw [← s.readScratch_eq hi]
      exact ⟨_, State.exec_scratchJumpif_of_lt hpc' hi addr, State.branchIf_pc_toNat hpc' _ addr,
        s.branchIf_movesOnlyPc _ addr⟩
    · next hbad =>
      exact State.checked_of_firstError hpc' (by simp [firstError_cons, Nat.le_of_not_lt hbad]) _

/-- Settles O23. -/
theorem wildJumpIsCaughtByTheNextStep : Obligations.WildJumpIsCaughtByTheNextStep := by
  intro s a hd hpc hbytes hwild
  have hstep : step s = .next (s.jumpTo a) := by
    rw [stepRunsTheInstructionInMemory s (.jump a) hd rfl hpc hbytes, State.exec_jump_of_lt hpc a]
  obtain ⟨hrun, hrem, -⟩ := hd
  exact ⟨_, hstep, hrun, s.jumpTo_pc_toNat a, State.step_of_wild_jumpTo hrun hrem hwild⟩

/-- Settles O16. -/
theorem haltStopsCleanly : Obligations.HaltStopsCleanly :=
  ⟨rfl, fun s => ⟨s.haltClean, rfl, rfl, rfl, rfl, fun _ => rfl, rfl, ⟨rfl, rfl⟩, ⟨rfl, rfl⟩, rfl, rfl, rfl⟩⟩

/-- Settles O17. -/
theorem waitLoadsBothCounters : Obligations.WaitLoadsBothCounters := by
  refine fun n => ⟨rfl, fun s => ?_⟩
  split
  · next hlack => exact State.checked_of_lacking hlack _
  · next hpc =>
    have hpc' : s.pc.toNat + 1 < s.memBytes := Nat.lt_of_not_le hpc
    exact ⟨_, State.exec_wait_of_lt hpc' n, rfl, rfl, State.advance_pc_toNat (s := s.startWait n) hpc',
      fun _ => rfl, rfl, ⟨rfl, rfl⟩, ⟨rfl, rfl⟩, rfl, rfl, rfl⟩

/-- Settles O19: the entry point is inside memory by the invariants (10_state.md R34). -/
theorem loopReturnsToTheEntryPoint : Obligations.LoopReturnsToTheEntryPoint := by
  refine ⟨rfl, fun s => ?_⟩
  have htarget := s.jumpTo_pc_toNat s.entryPoint
  obtain ⟨hmem, hscratch, hcontrol, hports⟩ := s.jumpTo_movesOnlyPc s.entryPoint
  refine ⟨s.jumpTo s.entryPoint, rfl, htarget, hmem, hscratch, hcontrol, hports,
    fun hspin => State.jumpTo_of_toNat_eq_pc hspin.symm, fun hinv => ?_⟩
  obtain ⟨-, -, -, -, hentry, -⟩ := hinv
  rw [htarget]
  exact hentry

end Sys2Proof.Machine

/-! PROOF. The display instructions `SET`, `CLEAR`, `LOAD`, `SETALL` and `SETNONE`: the events they send and what these
show (42_display.md R150 to R155). -/

namespace Sys2Proof.Machine

/-! ## What the events show -/

theorem pixelAfter_pairEvent_cons {p : Byte × Byte} (hp : pairInRange p = true) (on : Bool)
    (x y : Fin Config.displaySize) (old : Bool) (rest : List Event) :
    pixelAfter x y old (pairEvent on p :: rest)
      = pixelAfter x y (if p.1.toNat = x.val ∧ p.2.toNat = y.val then on else old) rest := by
  obtain ⟨hx, hy⟩ : p.1.toNat < 4 ∧ p.2.toNat < 4 := by simpa [pairInRange] using hp
  have hcoord : (Fin.ofNat 4 p.1.toNat = x ∧ Fin.ofNat 4 p.2.toNat = y) ↔
      (p.1.toNat = x.val ∧ p.2.toNat = y.val) := by
    simp only [Fin.ext_iff, Fin.val_ofNat, Nat.mod_eq_of_lt hx, Nat.mod_eq_of_lt hy]
  rw [pairEvent, pixelAfter]
  simp only [hcoord]

/-- Every event of one `SET` or `CLEAR` writes the same value, so the order of its pairs does not show. -/
theorem pixelAfter_pairEvents {pairs : List (Byte × Byte)} (h : pairs.all pairInRange = true) (on : Bool)
    (x y : Fin Config.displaySize) (old : Bool) :
    pixelAfter x y old (pairs.map (pairEvent on))
      = if pairs.any (fun p => p.1.toNat == x.val && p.2.toNat == y.val) = true then on else old := by
  induction pairs generalizing old with
  | nil => rfl
  | cons p rest ih =>
    obtain ⟨hp, hrest⟩ : pairInRange p = true ∧ rest.all pairInRange = true := by simpa using h
    rw [List.map_cons, pixelAfter_pairEvent_cons hp, ih hrest]
    by_cases hpixel : p.1.toNat = x.val ∧ p.2.toNat = y.val
    · simp [hpixel]
    · have hother : (p.1.toNat == x.val && p.2.toNat == y.val) = false := by simpa using hpixel
      rw [if_neg hpixel, List.any_cons, hother, Bool.false_or]

theorem pixelAfter_setPixel (x y x' y' : Fin Config.displaySize) (on old : Bool) :
    pixelAfter x y old [.setPixel x' y' on] = if x = x' ∧ y = y' then on else old := by
  simp [pixelAfter, eq_comm]

theorem pixelAfter_allOnEvents : ∀ (x y : Fin Config.displaySize) (old : Bool),
    pixelAfter x y old allOnEvents = true := by
  decide

theorem setPixel_mem_allOnEvents : ∀ x y : Fin Config.displaySize, Event.setPixel x y true ∈ allOnEvents := by
  decide

/-! ## What a display instruction leaves unchanged -/

namespace State

variable {s : State} {events : List Event}

/-- Everything but the trace, the display and `pc` is as before. -/
def KeepsAllButDisplay (s t : State) : Prop :=
  s.SameMemory t ∧ t.scratch = s.scratch ∧ s.SameControl t ∧ t.store = s.store

theorem emitAll_keepsAllButDisplay (hevents : ∀ e ∈ events, ∀ img, e ≠ .save img) :
    s.KeepsAllButDisplay (s.emitAll events) := by
  have hstore := s.emitAll_store events hevents
  obtain ⟨trace, display, store, heq⟩ := s.emitAll_eq events
  rw [heq] at hstore ⊢
  exact ⟨fun _ => rfl, rfl, ⟨⟨rfl, rfl⟩, ⟨rfl, rfl⟩, rfl, rfl⟩, hstore⟩

/-- `t` is `s` after an instruction of `n` bytes that sent these events, none of them a save. -/
def Shows (s t : State) (events : List Event) (n : Nat) : Prop :=
  s.Sent t events ∧ (∀ x y, t.display.pixel x y = pixelAfter x y (s.display.pixel x y) events) ∧
    t.pc.toNat = s.pc.toNat + n ∧ s.KeepsAllButDisplay t

theorem emitAll_advance_shows (s : State) {n : Nat} (hpc : s.pc.toNat + n ≤ s.memBytes)
    (hevents : ∀ e ∈ events, ∀ img, e ≠ .save img) : s.Shows ((s.emitAll events).advance n) events n := by
  refine ⟨s.emitAll_trace events, s.emitAll_pixel events, ?_, emitAll_keepsAllButDisplay hevents⟩
  rw [advance_pc_toNat (by rwa [emitAll_pc, emitAll_memBytes]), emitAll_pc]

/-! ## The handler of `SET` and `CLEAR` -/

variable {pairs : List (Byte × Byte)}

theorem draw_of_inRange (hlen : s.pc.toNat + (1 + 2 * pairs.length) < s.memBytes)
    (hpairs : pairs.all pairInRange = true) (on : Bool) :
    s.draw on pairs = .next ((s.emitAll (pairs.map (pairEvent on))).advance (2 + 2 * pairs.length)) := by
  rcases s.draw_cases on pairs with ⟨hlack, -⟩ | ⟨-, ⟨-, hdraw⟩ | ⟨hbad, -⟩⟩
  · omega
  · exact hdraw
  · exact absurd hpairs hbad

theorem draw_of_badPair (hlen : s.pc.toNat + (1 + 2 * pairs.length) < s.memBytes)
    (hpairs : pairs.all pairInRange ≠ true) (on : Bool) :
    s.draw on pairs
      = .next ((s.emitAll ((pairs.takeWhile pairInRange).map (pairEvent on))).raise .badCoord) := by
  rcases s.draw_cases on pairs with ⟨hlack, -⟩ | ⟨-, ⟨hok, -⟩ | ⟨-, hdraw⟩⟩
  · omega
  · exact absurd hok hpairs
  · exact hdraw

theorem drawsPairs_draw (on : Bool) (pairs : List (Byte × Byte)) (s : State) :
    DrawsPairs on pairs s (s.draw on pairs) := by
  unfold DrawsPairs
  split
  · next hlack => exact draw_of_lacking hlack on
  · next hlen =>
    have hlen' := Nat.lt_of_not_le hlen
    split
    · next hpairs =>
      obtain ⟨hsent, hpixel, hpc, hkept⟩ :=
        s.emitAll_advance_shows (n := 2 + 2 * pairs.length) (by omega) (ne_save_of_mem_pairEvents (on := on))
      exact ⟨_, draw_of_inRange hlen' hpairs on, hsent,
        fun x y => (hpixel x y).trans (pixelAfter_pairEvents hpairs on x y _), hpc, hkept⟩
    · next hpairs =>
      obtain ⟨hmem, hscratch, ⟨hfixed, hdelays, -⟩, hstore⟩ :=
        emitAll_keepsAllButDisplay (s := s) (ne_save_of_mem_pairEvents (on := on))
      exact ⟨_, draw_of_badPair hlen' hpairs on, s.emitAll_trace _, rfl, rfl, s.emitAll_pc _, hmem, hscratch, hfixed,
        hdelays, hstore⟩

theorem exec_load_of_lt {addr : Byte} (hpc : s.pc.toNat + 1 < s.memBytes) (haddr : addr.toNat < s.memBytes) :
    exec (.load addr) s = .next ((s.emitAll [.setPixel 0 0 (isPositive (s.readMem addr))]).advance 2) :=
  checked_of_ok hpc (by simp [firstError_cons, haddr]) _

end State

theorem pairBytes_eq_flatMap (pairs : List (Byte × Byte)) : pairBytes pairs = pairs.flatMap (fun p => [p.1, p.2]) := by
  induction pairs with
  | nil => rfl
  | cons p rest ih => rw [pairBytes, ih]; rfl

/-! ## The statements -/

/-- Settles O24: both instructions have one handler. -/
theorem setAndClearDrawTheirPairs : Obligations.SetAndClearDrawTheirPairs := by
  intro pairs
  rw [← pairBytes_eq_flatMap]
  exact ⟨rfl, rfl, fun s => ⟨State.drawsPairs_draw true pairs s, State.drawsPairs_draw false pairs s⟩⟩

/-- Settles O25. -/
theorem loadShowsAMemoryByteOnPixelZero : Obligations.LoadShowsAMemoryByteOnPixelZero := by
  refine fun addr => ⟨rfl, fun s => ?_⟩
  split
  · next hlack => exact State.checked_of_lacking hlack _
  · next hpc =>
    have hpc' : s.pc.toNat + 1 < s.memBytes := Nat.lt_of_not_le hpc
    split
    · next hbad => exact State.checked_of_firstError hpc' (by simp [firstError_cons, hbad]) _
    · next haddr =>
      obtain ⟨hsent, hpixel, hnext, hkept⟩ :=
        s.emitAll_advance_shows (n := 2) (events := [.setPixel 0 0 (isPositive (s.readMem addr))]) hpc' (by simp)
      refine ⟨_, State.exec_load_of_lt hpc' (Nat.lt_of_not_le haddr), hsent, fun x y => ?_, hnext, hkept⟩
      exact (hpixel x y).trans (pixelAfter_setPixel x y 0 0 _ _)

/-- Settles O26. -/
theorem setallTurnsEveryPixelOn : Obligations.SetallTurnsEveryPixelOn := by
  refine ⟨rfl, fun s hpc => ?_⟩
  obtain ⟨hsent, hpixel, hnext, hkept⟩ := s.emitAll_advance_shows (n := 1) hpc ne_save_of_mem_allOnEvents
  exact ⟨_, allOnEvents, rfl, hsent, rfl, setPixel_mem_allOnEvents,
    fun x y => (hpixel x y).trans (pixelAfter_allOnEvents x y _), hnext, hkept⟩

/-- Settles O27. -/
theorem setnoneTurnsEveryPixelOff : Obligations.SetnoneTurnsEveryPixelOff := by
  refine ⟨rfl, fun s hpc => ?_⟩
  obtain ⟨hsent, hpixel, hnext, hkept⟩ := s.emitAll_advance_shows (n := 1) (events := [.clearAll]) hpc (by simp)
  exact ⟨_, rfl, hsent, hpixel, hnext, hkept⟩

end Sys2Proof.Machine

/-! PROOF. A step computes the next machine state and the events it sends from the machine state alone (42_display.md
R156, 44_scratch.md R184, 60_exceptions.md R240). -/

namespace Sys2Proof.Machine

namespace State

variable {s t : State}

/-- The machine of `s` with the events sent so far, the display and the durable store of `outside`. -/
def withPortsOf (s outside : State) : State :=
  { s with trace := outside.trace, display := outside.display, store := outside.store }

theorem withPortsOf_self (s : State) : s.withPortsOf s = s := rfl

theorem eq_withPortsOf_of_sameMachine (h : s.SameMachine t) : t = s.withPortsOf t := by
  obtain ⟨hmem, hscratch, hpc, ⟨hsize, hentry⟩, ⟨hrem, htot⟩, hrun, herr⟩ := h
  rw [withPortsOf, ← hmem, ← hscratch, ← hpc, ← hsize, ← hentry, ← hrem, ← htot, ← hrun, ← herr]

theorem sameMachine_withPortsOf (s o o' : State) : (s.withPortsOf o).SameMachine (s.withPortsOf o') :=
  ⟨rfl, rfl, rfl, ⟨rfl, rfl⟩, ⟨rfl, rfl⟩, rfl, rfl⟩

/-- Whatever is outside, `f` leaves the machine of one state `t` and sends one list of events. -/
def Oblivious (f : State → Host.Outcome State Fault Refusal) (s : State) : Prop :=
  ∃ (t : State) (events : List Event), ∀ outside,
    f (s.withPortsOf outside) = .next ((t.withPortsOf outside).emitAll events)

/-! ## Events and the other operations -/

/-- An operation that commutes with one event commutes with any number of them. -/
theorem emitAll_comm {f : State → State} (hf : ∀ (u : State) (e : Event), f (u.emit e) = (f u).emit e)
    (events : List Event) (s : State) : f (s.emitAll events) = (f s).emitAll events := by
  induction events generalizing s with
  | nil => rfl
  | cons e rest ih => rw [emitAll, ih, hf, emitAll]

theorem advance_emitAll (n : Nat) (events : List Event) (s : State) :
    (s.emitAll events).advance n = (s.advance n).emitAll events :=
  emitAll_comm (f := fun u => u.advance n) (fun _ _ => rfl) events s

theorem raise_emitAll (e : ErrorCode) (events : List Event) (s : State) :
    (s.emitAll events).raise e = (s.raise e).emitAll events :=
  emitAll_comm (f := fun u => u.raise e) (fun _ _ => rfl) events s

theorem emitAll_withPortsOf_eq (s o : State) (events : List Event) :
    (s.withPortsOf o).emitAll events = s.withPortsOf ((s.withPortsOf o).emitAll events) := by
  obtain ⟨trace, display, store, heq⟩ := (s.withPortsOf o).emitAll_eq events
  rw [heq]
  rfl

theorem branchIf_withPortsOf (s o : State) (tested target : Byte) :
    (s.withPortsOf o).branchIf tested target = (s.branchIf tested target).withPortsOf o := by
  unfold branchIf
  split <;> rfl

/-! ## The shared handlers -/

/-- The checks look at the operands, `pc` and `MEM_SIZE`, none of them outside. -/
theorem Oblivious.of_checked {ops : List Operand} {effect : State → State} (t : State) (events : List Event)
    (heffect : ∀ o, effect (s.withPortsOf o) = (t.withPortsOf o).emitAll events) :
    Oblivious (fun u => u.checked ops (effect u)) s := by
  by_cases hlack : s.memBytes ≤ s.pc.toNat + ops.length
  · exact ⟨s.raise .argsOutOfRange, [], fun o => checked_of_lacking (s := s.withPortsOf o) hlack _⟩
  · have hlen : s.pc.toNat + ops.length < s.memBytes := Nat.lt_of_not_le hlack
    cases herr : firstError s.memBytes ops with
    | some e => exact ⟨s.raise e, [], fun o => checked_of_firstError (s := s.withPortsOf o) hlen herr _⟩
    | none =>
      refine ⟨t, events, fun o => ?_⟩
      rw [← heffect o]
      exact checked_of_ok (s := s.withPortsOf o) hlen herr _

/-- An effect that sends nothing leaves the outside as it is. -/
theorem Oblivious.of_checked_silent {ops : List Operand} {effect : State → State}
    (heffect : ∀ o, effect (s.withPortsOf o) = (effect s).withPortsOf o) :
    Oblivious (fun u => u.checked ops (effect u)) s :=
  of_checked (effect s) [] heffect

/-- The image saved is the machine's own scratch, whatever becomes of the save (44_scratch.md R184). -/
theorem Oblivious.of_checked_save {ops : List Operand} {effect : State → State} (t : State) (n : Nat)
    (heffect : ∀ o, effect (s.withPortsOf o) = (t.withPortsOf o).emitSave.advance n) :
    Oblivious (fun u => u.checked ops (effect u)) s :=
  of_checked (t.advance n) [.save t.scratch] heffect

theorem Oblivious.of_draw (on : Bool) (pairs : List (Byte × Byte)) : Oblivious (fun u => u.draw on pairs) s := by
  by_cases hlack : s.memBytes ≤ s.pc.toNat + (1 + 2 * pairs.length)
  · exact ⟨s.raise .argsOutOfRange, [], fun o => draw_of_lacking (s := s.withPortsOf o) hlack on⟩
  · have hlen : s.pc.toNat + (1 + 2 * pairs.length) < s.memBytes := Nat.lt_of_not_le hlack
    by_cases hpairs : pairs.all pairInRange = true
    · refine ⟨s.advance (2 + 2 * pairs.length), pairs.map (pairEvent on), fun o => ?_⟩
      exact (draw_of_inRange (s := s.withPortsOf o) hlen hpairs on).trans
        (congrArg Host.Outcome.next (advance_emitAll ..))
    · refine ⟨s.raise .badCoord, (pairs.takeWhile pairInRange).map (pairEvent on), fun o => ?_⟩
      exact (draw_of_badPair (s := s.withPortsOf o) hlen hpairs on).trans
        (congrArg Host.Outcome.next (raise_emitAll ..))

end State

open State (Oblivious)

/-! ## Every instruction and every step -/

/-- No instruction reads what lies outside. -/
theorem exec_oblivious (i : Instr) (s : State) : Oblivious (exec i) s := by
  cases i with
  | set pairs => exact .of_draw true pairs
  | clear pairs => exact .of_draw false pairs
  | halt => exact ⟨s.haltClean, [], fun _ => rfl⟩
  | loop => exact ⟨s.jumpTo s.entryPoint, [], fun _ => rfl⟩
  | setnone => exact ⟨s.advance 1, [.clearAll], fun _ => rfl⟩
  | setall =>
    refine ⟨s.advance 1, allOnEvents, fun o => ?_⟩
    exact congrArg Host.Outcome.next (State.advance_emitAll 1 allOnEvents (s.withPortsOf o))
  | load addr => exact .of_checked (s.advance 2) [.setPixel 0 0 (isPositive (s.readMem addr))] fun _ => rfl
  | scratchStore x value => exact .of_checked_save (s.writeScratch x value) 3 fun _ => rfl
  | scratchAdd x1 x2 dst =>
    exact .of_checked_save (s.writeScratch dst (Alu.add (s.readScratch x1) (s.readScratch x2))) 4 fun _ => rfl
  | scratchCopy addr x => exact .of_checked_save (s.writeScratch x (s.readMem addr)) 3 fun _ => rfl
  | jumpif addr testAddr => exact .of_checked_silent fun o => s.branchIf_withPortsOf o (s.readMem testAddr) addr
  | scratchJumpif addr x => exact .of_checked_silent fun o => s.branchIf_withPortsOf o (s.readScratch x) addr
  | wait | store | jump | add | sub | and | or | xor | not | shl | shr | scratchLoad =>
    exact .of_checked_silent fun _ => rfl

theorem step_oblivious {s t : State} (ht : step s = .next t) : Oblivious step s := by
  rcases step_cases ht with ⟨hrun, -⟩ | ⟨hrun, hrem, -⟩ | ⟨hrun, hrem, hpc, -⟩ | ⟨hd, ⟨e, he, -⟩ | ⟨i, hi, -⟩⟩
  · exact ⟨s, [], fun o => State.step_of_halted (s := s.withPortsOf o) hrun⟩
  · exact ⟨s.waitTick, [], fun o => State.step_of_waiting (s := s.withPortsOf o) hrun hrem⟩
  · exact ⟨s.raise .pcOutOfRange, [], fun o => State.step_of_pc_beyond (s := s.withPortsOf o) hrun hrem hpc⟩
  · exact ⟨s.raise e, [], fun o => State.step_of_fetchDecode_error (s := s.withPortsOf o) hd he⟩
  · obtain ⟨u, events, hexec⟩ := exec_oblivious i s
    exact ⟨u, events, fun o => (State.step_of_fetchDecode_ok (s := s.withPortsOf o) hd hi).trans (hexec o)⟩

/-- Settles O43: what the step of the one machine does is the same for the two outsides. -/
theorem nothingOutsideFlowsBack : Obligations.NothingOutsideFlowsBack := by
  intro s s' t t' hsame ht ht'
  obtain ⟨u, events, hstep⟩ := step_oblivious ht
  rw [← s.withPortsOf_self, hstep s] at ht
  rw [State.eq_withPortsOf_of_sameMachine hsame, hstep s'] at ht'
  cases ht
  cases ht'
  refine ⟨?_, events, State.emitAll_trace .., State.emitAll_trace ..⟩
  rw [State.emitAll_withPortsOf_eq u s, State.emitAll_withPortsOf_eq u s']
  exact State.sameMachine_withPortsOf ..

end Sys2Proof.Machine

/-! PROOF. The memory and arithmetic instructions `STORE`, `ADD`, `SUB`, `AND`, `OR`, `XOR`, `NOT`, `SHL` and `SHR`:
the byte each computes, and where it goes (43_memory_alu.md R160 to R170). -/

namespace Sys2Proof.Machine

/-! ## The operations on bytes, by value and by bit -/

namespace Alu

variable (va vb : Byte)

theorem toNat_add : (add va vb).toNat = (va.toNat + vb.toNat) % 256 := BitVec.toNat_ofNat ..

theorem toNat_sub : (sub va vb).toNat = (va.toNat + 256 - vb.toNat) % 256 := BitVec.toNat_ofNat ..

theorem toNat_shl : (shl va).toNat = va.toNat * 2 % 256 := BitVec.toNat_ofNat ..

/-- The complement of a byte is a byte, so nothing is reduced. -/
theorem toNat_not : (not va).toNat = 255 - va.toNat := by
  rw [not, BitVec.toNat_ofNat]
  omega

/-- Half a byte is a byte, so nothing is reduced. -/
theorem toNat_shr : (shr va).toNat = va.toNat / 2 := by
  rw [shr, BitVec.toNat_ofNat]
  omega

theorem getLsbD_and (k : Nat) : (and va vb).getLsbD k = (va.getLsbD k && vb.getLsbD k) := BitVec.getLsbD_and

theorem getLsbD_or (k : Nat) : (or va vb).getLsbD k = (va.getLsbD k || vb.getLsbD k) := BitVec.getLsbD_or

theorem getLsbD_xor (k : Nat) : (xor va vb).getLsbD k = (va.getLsbD k != vb.getLsbD k) := BitVec.getLsbD_xor

theorem not_eq_complement : not va = ~~~va := by
  apply BitVec.eq_of_toNat_eq
  rw [toNat_not, BitVec.toNat_not]

theorem shl_eq_shiftLeft : shl va = va <<< 1 := by
  apply BitVec.eq_of_toNat_eq
  rw [toNat_shl, BitVec.toNat_shiftLeft, Nat.shiftLeft_eq]

theorem shr_eq_ushiftRight : shr va = va >>> 1 := by
  apply BitVec.eq_of_toNat_eq
  rw [toNat_shr, BitVec.toNat_ushiftRight, Nat.shiftRight_eq_div_pow]

theorem getLsbD_not {k : Nat} (hk : k < 8) : (not va).getLsbD k = !va.getLsbD k := by
  rw [not_eq_complement, BitVec.getLsbD_not, decide_eq_true hk, Bool.true_and]

theorem getLsbD_shl_zero : (shl va).getLsbD 0 = false := by
  simp [shl_eq_shiftLeft]

theorem getLsbD_shl_succ {k : Nat} (hk : k < 7) : (shl va).getLsbD (k + 1) = va.getLsbD k := by
  have hbit : k + 1 < 8 := Nat.succ_lt_succ hk
  rw [shl_eq_shiftLeft, BitVec.getLsbD_shiftLeft, Nat.add_sub_cancel]
  simp [hbit]

theorem getLsbD_shr (k : Nat) : (shr va).getLsbD k = va.getLsbD (k + 1) := by
  rw [shr_eq_ushiftRight, BitVec.getLsbD_ushiftRight, Nat.add_comm]

/-- Bit 7 of the half is bit 8 of the byte, which it does not have. -/
theorem getLsbD_shr_seven : (shr va).getLsbD 7 = false :=
  (getLsbD_shr va 7).trans (BitVec.getLsbD_of_ge va 8 le_rfl)

end Alu

/-! ## The address checks -/

/-- Operands that are all addresses have one error among them, whichever is checked first (R169). -/
theorem firstError_map_mem (size : Nat) (addrs : List Byte) :
    firstError size (addrs.map .mem)
      = if (addrs.any fun a => decide (size ≤ a.toNat)) = true then some .badMemAddr else none := by
  induction addrs with
  | nil => rfl
  | cons a rest ih =>
    rw [List.map_cons, firstError_cons, ih, Operand.error_mem]
    by_cases ha : size ≤ a.toNat <;> simp [ha]

namespace State

/-! ## What a write to memory leaves unchanged -/

/-- `t` is `s` after an instruction of `n` bytes whose one effect is to make the byte at `d` read `v`. -/
def Stores (s t : State) (d : Nat) (v : Byte) (n : Nat) : Prop :=
  s.MemoryButOne t d v ∧ t.pc.toNat = s.pc.toNat + n ∧ t.scratch = s.scratch ∧ s.SameControl t ∧ s.SamePorts t

theorem writeMem_memoryButOne (s : State) (dst v : Byte) : s.MemoryButOne (s.writeMem dst v) dst.toNat v :=
  ⟨Memory.read_write_same .., fun _ => Memory.read_write_other _ _⟩

theorem writeMem_advance_stores {s : State} {n : Nat} (hpc : s.pc.toNat + n ≤ s.memBytes) (dst v : Byte) :
    s.Stores ((s.writeMem dst v).advance n) dst.toNat v n :=
  ⟨s.writeMem_memoryButOne dst v, advance_pc_toNat (s := s.writeMem dst v) hpc, rfl,
    ⟨⟨rfl, rfl⟩, ⟨rfl, rfl⟩, rfl, rfl⟩, rfl, rfl, rfl⟩

/-! ## The handlers -/

/-- A handler that writes one byte, its checks being those of the addresses `addrs` (R169). -/
theorem storesByte_checked {s : State} {ops : List Operand} {addrs : List Byte}
    (hops : firstError s.memBytes ops = firstError s.memBytes (addrs.map .mem)) (dst v : Byte) :
    StoresByte ops.length addrs dst v s (s.checked ops ((s.writeMem dst v).advance (ops.length + 1))) := by
  rw [firstError_map_mem] at hops
  unfold StoresByte
  split
  · next hlack => exact checked_of_lacking hlack _
  · next hlen =>
    have hpc : s.pc.toNat + ops.length < s.memBytes := Nat.lt_of_not_le hlen
    split
    · next hbad => exact checked_of_firstError hpc (hops.trans (if_pos hbad)) _
    · next hok =>
      exact ⟨_, checked_of_ok hpc (hops.trans (if_neg hok)) _, writeMem_advance_stores hpc dst v⟩

/-- The three-address form computes from the two bytes as they were before the write. -/
theorem storesByte_binary (f : Byte → Byte → Byte) (a b dst : Byte) (s : State) :
    StoresByte 3 [a, b, dst] dst (f (s.readMem a) (s.readMem b)) s (s.binary f a b dst) :=
  storesByte_checked (ops := [.mem a, .mem b, .mem dst]) rfl dst _

/-- The two-address form computes from the byte as it was before the write. -/
theorem storesByte_unary (g : Byte → Byte) (a dst : Byte) (s : State) :
    StoresByte 2 [a, dst] dst (g (s.readMem a)) s (s.unary g a dst) :=
  storesByte_checked (ops := [.mem a, .mem dst]) rfl dst _

/-- The constant operand of `STORE` has no check. -/
theorem storesByte_store (addr value : Byte) (s : State) :
    StoresByte 2 [addr] addr value s (exec (.store addr value) s) :=
  storesByte_checked (ops := [.mem addr, .value value]) (by simp [firstError_cons]) addr value

end State

/-! ## The statements -/

/-- Settles O28. -/
theorem storeWritesItsValue : Obligations.StoreWritesItsValue :=
  fun addr value => ⟨rfl, State.storesByte_store addr value⟩

/-- Settles O29. -/
theorem addAndSubWrapModulo256 : Obligations.AddAndSubWrapModulo256 := by
  refine fun a b dst => ⟨rfl, rfl, ?_⟩
  rintro s va vb rfl rfl
  exact ⟨⟨_, Alu.toNat_add _ _, State.storesByte_binary Alu.add a b dst s⟩,
    ⟨_, Alu.toNat_sub _ _, State.storesByte_binary Alu.sub a b dst s⟩⟩

/-- Settles O30. -/
theorem andOrXorWorkBitByBit : Obligations.AndOrXorWorkBitByBit := by
  refine fun a b dst => ⟨rfl, rfl, rfl, ?_⟩
  rintro s va vb rfl rfl
  exact ⟨⟨_, fun k _ => Alu.getLsbD_and _ _ k, State.storesByte_binary Alu.and a b dst s⟩,
    ⟨_, fun k _ => Alu.getLsbD_or _ _ k, State.storesByte_binary Alu.or a b dst s⟩,
    ⟨_, fun k _ => Alu.getLsbD_xor _ _ k, State.storesByte_binary Alu.xor a b dst s⟩⟩

/-- Settles O31. -/
theorem shlDoublesModulo256 : Obligations.ShlDoublesModulo256 := by
  refine fun a dst => ⟨rfl, ?_⟩
  rintro s va rfl
  exact ⟨_, Alu.toNat_shl _, Alu.getLsbD_shl_zero _, fun _ => Alu.getLsbD_shl_succ _,
    State.storesByte_unary Alu.shl a dst s⟩

/-- Settles O32. -/
theorem notInvertsAndShrHalves : Obligations.NotInvertsAndShrHalves := by
  refine fun a dst => ⟨rfl, rfl, ?_⟩
  rintro s va rfl
  exact ⟨⟨_, Alu.toNat_not _, fun _ => Alu.getLsbD_not _, State.storesByte_unary Alu.not a dst s⟩,
    ⟨_, Alu.toNat_shr _, Alu.getLsbD_shr_seven _, fun k _ => Alu.getLsbD_shr _ k,
      State.storesByte_unary Alu.shr a dst s⟩⟩

end Sys2Proof.Machine

/-! PROOF. The scratch instructions `SCRATCH_STORE`, `SCRATCH_LOAD`, `SCRATCH_ADD` and `SCRATCH_COPY`: what they write,
the save that ends the three that write scratch, and the order of their checks (44_scratch.md R180 to R184). -/

namespace Sys2Proof.Machine

/-! ## A save and the checks of scratch indices -/

/-- A save has two outcomes, and which of them happens is free (log 6). -/
theorem DurableStore.after_save (d : DurableStore) (img : Scratch) :
    ((d.after (.save img)).image = some img ∧ (d.after (.save img)).log = d.log) ∨
      ((d.after (.save img)).image = d.image ∧ (d.after (.save img)).log = d.log ++ [.saveFailed]) := by
  cases hsave : Config.saveSucceeds d.saves with
  | true => exact .inl ⟨if_pos hsave, if_pos hsave⟩
  | false => exact .inr ⟨if_neg (by simp [hsave]), if_neg (by simp [hsave])⟩

/-- Operands that are all scratch indices have one error among them, whichever is checked first (R182). -/
theorem firstError_map_scr (size : Nat) (idxs : List Byte) :
    firstError size (idxs.map .scr) = if ∀ i ∈ idxs, i.toNat < 8 then none else some .badScratchAddr := by
  induction idxs with
  | nil => rfl
  | cons i rest ih =>
    rw [List.map_cons, firstError_cons, ih, Operand.error_scr]
    by_cases hi : i.toNat < 8
    · simp [hi, Nat.not_le_of_lt hi]
    · simp [hi, Nat.le_of_not_lt hi]

namespace State

variable {s : State}

/-! ## What a write to scratch and its save leave unchanged -/

theorem emitSave_savedOnce (s : State) : s.SavedOnce s.emitSave :=
  ⟨rfl, rfl, s.store.after_save s.scratch⟩

/-- `t` is `s` after an instruction of `n` bytes whose effect is to make `x[d]` hold `v` and to save scratch once. -/
def SavesScratch (s t : State) (d : Nat) (v : Byte) (n : Nat) : Prop :=
  s.ScratchButOne t d v ∧ s.SavedOnce t ∧ t.pc.toNat = s.pc.toNat + n ∧ s.SameMemory t ∧ s.SameControl t

theorem writeScratch_emitSave_advance_saves {n : Nat} (hpc : s.pc.toNat + n ≤ s.memBytes) (d v : Byte) :
    s.SavesScratch ((s.writeScratch d v).emitSave.advance n) d.toNat v n :=
  ⟨s.writeScratch_get d v, (s.writeScratch d v).emitSave_savedOnce,
    advance_pc_toNat (s := (s.writeScratch d v).emitSave) hpc, fun _ => rfl, ⟨rfl, rfl⟩, ⟨rfl, rfl⟩, rfl, rfl⟩

/-- A handler that writes scratch and saves it (R184), its checks passed. -/
theorem savesScratch_checked {ops : List Operand} (hpc : s.pc.toNat + ops.length < s.memBytes)
    (hok : firstError s.memBytes ops = none) (d v : Byte) :
    ∃ t, s.checked ops ((s.writeScratch d v).emitSave.advance (ops.length + 1)) = .next t ∧
      s.SavesScratch t d.toNat v (ops.length + 1) :=
  ⟨_, checked_of_ok hpc hok _, writeScratch_emitSave_advance_saves hpc d v⟩

end State

/-! ## The statements -/

/-- Settles O33: the constant operand has no check. -/
theorem scratchStoreWritesAndSaves : Obligations.ScratchStoreWritesAndSaves := by
  refine fun x value => ⟨rfl, fun s => ?_⟩
  split
  · next hlack => exact State.checked_of_lacking hlack _
  · next hlen =>
    have hpc : s.pc.toNat + 2 < s.memBytes := Nat.lt_of_not_le hlen
    split
    · next hbad => exact State.checked_of_firstError hpc (by simp [firstError_cons, hbad]) _
    · next hx =>
      exact State.savesScratch_checked (ops := [.scr x, .value value]) hpc (by simp [firstError_cons, hx]) x value

/-- Settles O34: the effect is the write of a memory instruction, and the index is checked before the address. -/
theorem scratchLoadCopiesToMemory : Obligations.ScratchLoadCopiesToMemory := by
  refine fun x addr => ⟨rfl, fun s => ?_⟩
  split
  · next hlack => exact State.checked_of_lacking hlack _
  · next hlen =>
    have hpc : s.pc.toNat + 2 < s.memBytes := Nat.lt_of_not_le hlen
    split
    · next hx =>
      split
      · next hbad => exact State.checked_of_firstError hpc (by simp [firstError_cons, Nat.not_le_of_lt hx, hbad]) _
      · next haddr =>
        rw [← s.readScratch_eq hx]
        exact ⟨_, State.checked_of_ok hpc (by simp [firstError_cons, hx, haddr]) _,
          State.writeMem_advance_stores hpc addr _⟩
    · next hbad => exact State.checked_of_firstError hpc (by simp [firstError_cons, Nat.le_of_not_lt hbad]) _

/-- Settles O35: both summands are read before the write, so any of the three indices may coincide. -/
theorem scratchAddWrapsAndSaves : Obligations.ScratchAddWrapsAndSaves := by
  refine fun x1 x2 dst => ⟨rfl, fun s => ?_⟩
  have hchecks : firstError s.memBytes [.scr x1, .scr x2, .scr dst]
      = if x1.toNat < 8 ∧ x2.toNat < 8 ∧ dst.toNat < 8 then none else some .badScratchAddr := by
    simpa using firstError_map_scr s.memBytes [x1, x2, dst]
  split
  · next hlack => exact State.checked_of_lacking hlack _
  · next hlen =>
    have hpc : s.pc.toNat + 3 < s.memBytes := Nat.lt_of_not_le hlen
    split
    · next hidx =>
      obtain ⟨t, hexec, hsaves⟩ := State.savesScratch_checked hpc (hchecks.trans (if_pos hidx)) dst
        (Alu.add (s.readScratch x1) (s.readScratch x2))
      have ⟨hx1, hx2, _⟩ := hidx
      rw [← s.readScratch_eq hx1, ← s.readScratch_eq hx2]
      exact ⟨t, _, hexec, Alu.toNat_add _ _, hsaves⟩
    · next hbad => exact State.checked_of_firstError hpc (hchecks.trans (if_neg hbad)) _

/-- Settles O36: the address is checked before the index. -/
theorem scratchCopyReadsMemoryAndSaves : Obligations.ScratchCopyReadsMemoryAndSaves := by
  refine fun addr x => ⟨rfl, fun s => ?_⟩
  split
  · next hlack => exact State.checked_of_lacking hlack _
  · next hlen =>
    have hpc : s.pc.toNat + 2 < s.memBytes := Nat.lt_of_not_le hlen
    split
    · next hbad => exact State.checked_of_firstError hpc (by simp [firstError_cons, hbad]) _
    · next haddr =>
      split
      · next hbad => exact State.checked_of_firstError hpc (by simp [firstError_cons, haddr, hbad]) _
      · next hx =>
        exact State.savesScratch_checked (ops := [.mem addr, .scr x]) hpc (by simp [firstError_cons, haddr, hx]) x
          (s.readMem addr)

end Sys2Proof.Machine

/-! PROOF. The far side of the two ports after a step and after any number of steps: the display is what the events sent
make of it, the durable image that of the last save that succeeded (50_interfaces.md R208 to R213). -/

namespace Sys2Proof.Machine

/-! ## Saves -/

theorem savedImages_append (es fs : List Event) : savedImages (es ++ fs) = savedImages es ++ savedImages fs := by
  induction es with
  | nil => rfl
  | cons e rest ih => cases e <;> simp [savedImages, ih]

/-- The durable store after saves of these images, oldest first. -/
def DurableStore.saveAll (d : DurableStore) (imgs : List Scratch) : DurableStore :=
  imgs.foldl (fun d img => d.after (.save img)) d

namespace DurableStore

variable (d : DurableStore) (imgs : List Scratch)

theorem saveAll_append (more : List Scratch) : d.saveAll (imgs ++ more) = (d.saveAll imgs).saveAll more :=
  List.foldl_append

theorem saveAll_concat (img : Scratch) : d.saveAll (imgs ++ [img]) = (d.saveAll imgs).after (.save img) :=
  d.saveAll_append imgs [img]

theorem saveAll_saves : (d.saveAll imgs).saves = d.saves + imgs.length := by
  induction imgs using List.reverseRecOn with
  | nil => rfl
  | append_singleton rest img ih =>
    rw [saveAll_concat, after, ih, List.length_append, List.length_singleton, Nat.add_assoc]

/-- The image after these saves is that of the last one that succeeded, or the old one when none did. -/
def ImageOfLastSuccess : Prop :=
  ((d.saveAll imgs).image = d.image ∧ ∀ j < imgs.length, Config.saveSucceeds (d.saves + j) = false) ∨
    ∃ j img, imgs[j]? = some img ∧ (d.saveAll imgs).image = some img ∧ Config.saveSucceeds (d.saves + j) = true ∧
      ∀ l < imgs.length, j < l → Config.saveSucceeds (d.saves + l) = false

variable {d imgs} {img : Scratch}

/-- A save that succeeds is the last success so far. -/
theorem ImageOfLastSuccess.concat_of_success (hsave : Config.saveSucceeds (d.saves + imgs.length) = true) :
    d.ImageOfLastSuccess (imgs ++ [img]) := by
  refine .inr ⟨imgs.length, img, List.getElem?_concat_length, ?_, hsave, fun l hl hlater => ?_⟩
  · rw [saveAll_concat]
    exact if_pos (by rwa [saveAll_saves])
  · simp at hl
    omega

/-- A save that fails leaves the last success what it was. -/
theorem ImageOfLastSuccess.concat_of_failure (h : d.ImageOfLastSuccess imgs)
    (hsave : Config.saveSucceeds (d.saves + imgs.length) = false) : d.ImageOfLastSuccess (imgs ++ [img]) := by
  have himage : (d.saveAll (imgs ++ [img])).image = (d.saveAll imgs).image := by
    rw [saveAll_concat]
    exact if_neg (by simp [saveAll_saves, hsave])
  have hlen : (imgs ++ [img]).length = imgs.length + 1 := List.length_append
  unfold ImageOfLastSuccess
  rw [himage, hlen]
  rcases h with ⟨hold, hfail⟩ | ⟨j, last, hlast, hstored, hsucc, hfail⟩
  · exact .inl ⟨hold, Nat.forall_lt_succ_right.mpr ⟨hfail, hsave⟩⟩
  · obtain ⟨hj, -⟩ := List.getElem?_eq_some_iff.mp hlast
    exact .inr ⟨j, last, (List.getElem?_append_left hj).trans hlast, hstored, hsucc,
      Nat.forall_lt_succ_right.mpr ⟨hfail, fun _ => hsave⟩⟩

theorem imageOfLastSuccess (d : DurableStore) (imgs : List Scratch) : d.ImageOfLastSuccess imgs := by
  induction imgs using List.reverseRecOn with
  | nil => exact .inl ⟨rfl, nofun⟩
  | append_singleton rest img ih =>
    cases hsave : Config.saveSucceeds (d.saves + rest.length) with
    | true => exact .concat_of_success hsave
    | false => exact ih.concat_of_failure hsave

end DurableStore

/-! ## What the events sent make of the far side -/

namespace State

variable {s t u : State} {es fs : List Event}

theorem emitAll_store_eq_saveAll (events : List Event) (s : State) :
    (s.emitAll events).store = s.store.saveAll (savedImages events) := by
  induction events generalizing s with
  | nil => rfl
  | cons e rest ih => rw [emitAll, ih]; cases e <;> rfl

/-- From `s` to `t` these events were sent, and the display and the durable store are what they make of them. -/
def Reports (s t : State) (events : List Event) : Prop :=
  s.Sent t events ∧ (∀ x y, t.display.pixel x y = pixelAfter x y (s.display.pixel x y) events) ∧
    t.store = s.store.saveAll (savedImages events)

theorem emitAll_reports (s : State) (events : List Event) : s.Reports (s.emitAll events) events :=
  ⟨s.emitAll_trace events, s.emitAll_pixel events, s.emitAll_store_eq_saveAll events⟩

theorem Reports.refl (s : State) : s.Reports s [] := s.emitAll_reports []

theorem Reports.trans (h : s.Reports t es) (h' : t.Reports u fs) : s.Reports u (es ++ fs) := by
  obtain ⟨hsent, hpixel, hstore⟩ := h
  obtain ⟨hsent', hpixel', hstore'⟩ := h'
  refine ⟨?_, fun x y => ?_, ?_⟩
  · exact hsent'.trans (by rw [hsent, List.append_assoc])
  · rw [hpixel', hpixel, pixelAfter_append]
  · rw [hstore', hstore, savedImages_append, DurableStore.saveAll_append]

end State

/-- Nothing but the events of a step reaches the far side of the ports. -/
theorem step_reports {s t : State} (ht : step s = .next t) : ∃ events, s.Reports t events := by
  obtain ⟨u, events, hstep⟩ := step_oblivious ht
  rw [← s.withPortsOf_self, hstep s] at ht
  cases ht
  exact ⟨events, (u.withPortsOf s).emitAll_reports events⟩

/-- Settles O44. -/
theorem displayShowsTheEventsSent : Obligations.DisplayShowsTheEventsSent := by
  intro s t ht
  obtain ⟨events, hsent, hpixel, -⟩ := step_reports ht
  exact ⟨events, hsent, hpixel⟩

theorem exists_step_of_run_succ {M : Host.Core} {s t : M.State} {k : Nat} (h : M.run (k + 1) s = .next t) :
    ∃ u, M.step s = .next u ∧ M.run k u = .next t := by
  rw [Host.Core.run] at h
  split at h
  · next u hstep => exact ⟨u, hstep, h⟩
  · cases h
  · cases h

theorem run_reports {k : Nat} {s t : State} (ht : core.run k s = .next t) : ∃ events, s.Reports t events := by
  induction k generalizing s with
  | zero => cases ht; exact ⟨[], .refl _⟩
  | succ k ih =>
    obtain ⟨u, hstep, hrun⟩ := exists_step_of_run_succ ht
    obtain ⟨es, hes⟩ := step_reports hstep
    obtain ⟨fs, hfs⟩ := ih hrun
    exact ⟨es ++ fs, hes.trans hfs⟩

/-! ## The one save of a step -/

/-- A failed check saves nothing, so a checked handler keeps the store or does what its effect does. -/
theorem State.store_eq_or_sent_of_checked {s t effect : State} {ops : List Operand}
    (ht : s.checked ops effect = .next t) (heffect : s.Sent effect [.save effect.scratch]) :
    t.store = s.store ∨ s.Sent t [.save t.scratch] := by
  rcases s.checked_cases ops effect with ⟨-, hc⟩ | ⟨-, ⟨e, -, hc⟩ | ⟨-, hc⟩⟩ <;> cases hc.symm.trans ht
  · exact .inl rfl
  · exact .inl rfl
  · exact .inr heffect

/-- The three instructions that write scratch end with its one save, the others send none (44_scratch.md R184). -/
theorem exec_store_eq_or_sent {i : Instr} {s t : State} (ht : exec i s = .next t) :
    t.store = s.store ∨ s.Sent t [.save t.scratch] := by
  cases hwrites : writesScratch i with
  | false =>
    obtain ⟨-, hscratch, -⟩ := exec_changesOnly ht
    exact .inl (hscratch hwrites).2
  | true =>
    cases i with
    | scratchStore x value => exact State.store_eq_or_sent_of_checked ht rfl
    | scratchAdd x1 x2 dst => exact State.store_eq_or_sent_of_checked ht rfl
    | scratchCopy addr x => exact State.store_eq_or_sent_of_checked ht rfl
    | _ => cases hwrites

theorem step_store_eq_or_sent {s t : State} (ht : step s = .next t) :
    t.store = s.store ∨ s.Sent t [.save t.scratch] := by
  rcases step_cases ht with ⟨-, rfl⟩ | ⟨-, -, rfl⟩ | ⟨-, -, -, rfl⟩ | ⟨-, ⟨e, -, rfl⟩ | ⟨i, -, hexec⟩⟩
  · exact .inl rfl
  · exact .inl rfl
  · exact .inl rfl
  · exact .inl rfl
  · exact exec_store_eq_or_sent hexec

namespace State.Reports

variable {s t : State} {events : List Event} (h : s.Reports t events)
include h

theorem saves_eq : t.store.saves = s.store.saves + (savedImages events).length := by
  obtain ⟨-, -, hstore⟩ := h
  rw [hstore, DurableStore.saveAll_saves]

/-- Every save counts, so a store that did not change was not saved to. -/
theorem savedImages_eq_nil (hkept : t.store = s.store) : savedImages events = [] := by
  have hsaves := h.saves_eq
  rw [hkept] at hsaves
  exact List.length_eq_zero_iff.mp (by omega)

/-- The events are all that the trace of `t` has beyond that of `s`. -/
theorem eq_of_sent {events' : List Event} (hsent' : s.Sent t events') : events = events' := by
  obtain ⟨hsent, -⟩ := h
  exact List.append_cancel_left (hsent.symm.trans hsent')

end State.Reports

/-- Settles O45: the step by what an instruction can save, the run by what its saves make of the store. -/
theorem durableImageIsOneThatWasSaved : Obligations.DurableImageIsOneThatWasSaved := by
  refine ⟨fun s t ht => ?_, fun k s t ht => ?_⟩
  · obtain ⟨events, hreports⟩ := step_reports ht
    have ⟨hsent, _⟩ := hreports
    refine ⟨events, hsent, ?_⟩
    rcases step_store_eq_or_sent ht with hkept | hsave
    · exact .inl ⟨hreports.savedImages_eq_nil hkept, hkept⟩
    · exact .inr (congrArg savedImages (hreports.eq_of_sent hsave))
  · obtain ⟨events, hreports⟩ := run_reports ht
    have hsaves := hreports.saves_eq
    obtain ⟨hsent, -, hstore⟩ := hreports
    have himage := s.store.imageOfLastSuccess (savedImages events)
    rw [DurableStore.ImageOfLastSuccess, ← hstore] at himage
    exact ⟨events, hsent, hsaves, himage⟩

end Sys2Proof.Machine

/-! PROOF. The host operations `Construct`, `Reset` and `Load` of an image (50_interfaces.md R201 to R203). -/

namespace Sys2Proof.Machine

/-! ## The sizes of memory -/

theorem exists_memBytes_eq_iff {n : Nat} :
    (∃ size, Config.memBytes size = n) ↔ n = 32 ∨ n = 64 ∨ n = 128 ∨ n = 256 := by
  constructor
  · rintro ⟨size, rfl⟩
    cases size <;> decide
  · rintro (rfl | rfl | rfl | rfl)
    · exact ⟨.b32, rfl⟩
    · exact ⟨.b64, rfl⟩
    · exact ⟨.b128, rfl⟩
    · exact ⟨.b256, rfl⟩

theorem memSizeOf_memBytes (size : MemSize) : Config.memSizeOf (Config.memBytes size) = some size := by
  cases size <;> rfl

theorem memSizeOf_eq_none {n : Nat} (h : ¬(n = 32 ∨ n = 64 ∨ n = 128 ∨ n = 256)) : Config.memSizeOf n = none := by
  obtain ⟨h32, h64, h128, h256⟩ : n ≠ 32 ∧ n ≠ 64 ∧ n ≠ 128 ∧ n ≠ 256 := by simpa using h
  rw [Config.memSizeOf, if_neg h32, if_neg h64, if_neg h128, if_neg h256]

/-! ## Construct -/

theorem construct_memBytes (size : MemSize) (stored : Option Scratch) (display : Display) :
    construct (Config.memBytes size) stored display = some (State.construct size stored display) := by
  rw [construct, memSizeOf_memBytes, Option.map_some]

theorem Scratch.get_zero (i : Fin Config.scratchSize) : Scratch.zero.get i = 0 := by
  simp [Scratch.zero, Vector.get_eq_getElem]

/-- Settles O47. -/
theorem constructGivesTheIdleMachine : Obligations.ConstructGivesTheIdleMachine := by
  refine ⟨fun n stored display => ?_, construct_memBytes .b64 none Display.allOff⟩
  split
  · next hsize =>
    obtain ⟨size, rfl⟩ := exists_memBytes_eq_iff.mpr hsize
    refine ⟨_, construct_memBytes size stored display, rfl, Memory.read_zero, fun i => ?_, rfl, rfl, rfl, rfl, rfl,
      rfl, rfl, rfl, rfl⟩
    cases stored with
    | none => exact Scratch.get_zero i
    | some img => rfl
  · next hsize => rw [construct, memSizeOf_eq_none hsize, Option.map_none]

/-! ## Reset and Load -/

/-- Settles O48. -/
theorem hostResetClearsAllButScratchAndEntryPoint : Obligations.HostResetClearsAllButScratchAndEntryPoint :=
  fun s => ⟨Memory.read_zero, rfl, s.jumpTo_pc_toNat s.entryPoint, ⟨rfl, rfl⟩, rfl, rfl, rfl, rfl, rfl, rfl, rfl⟩

/-- Settles O49. -/
theorem loadMakesTheLaunchState : Obligations.LoadMakesTheLaunchState := by
  intro s image ep
  split
  · next hfits =>
    obtain ⟨hlen, hep⟩ := hfits
    exact ⟨_, State.load_of_fits hlen hep, Memory.read_ofImage image, rfl, State.toNat_ofNat_entryPoint hep,
      State.launched_pc_toNat hep image, rfl, rfl, rfl, rfl, rfl, rfl, rfl, rfl⟩
  · next hbad => exact if_neg hbad

end Sys2Proof.Machine

/-! PROOF. The exceptions: every step has a next state, an error halts precisely, each error comes from the instructions
listed for it, and a halt is final (60_exceptions.md R230 to R236). -/

namespace Sys2Proof.Machine

/-! ## The error codes -/

/-- The register's number names the code: the codes stand in the order of their numbers (R231). -/
theorem ErrorCode.ofNat_code (e : ErrorCode) : ErrorCode.ofNat e.code.toNat = e := by cases e <;> rfl

theorem ErrorCode.code_injective {e f : ErrorCode} (h : e.code = f.code) : e = f := by
  rw [← e.ofNat_code, h, f.ofNat_code]

/-- Settles O51. -/
theorem errorCodesHaveTheirNumbers : Obligations.ErrorCodesHaveTheirNumbers :=
  ⟨rfl, rfl, rfl, rfl, rfl, rfl, rfl, rfl, fun _ _ => ErrorCode.code_injective⟩

/-! ## A halt is final -/

/-- Settles O11, by induction on the number of steps, each of which does nothing. -/
theorem haltIsFinal : Obligations.HaltIsFinal := by
  intro k s hrun
  induction k with
  | zero => rfl
  | succ k ih => exact (run_succ_of_step (M := core) (State.step_of_halted hrun) k).trans ih

/-! ## Every state has a next one -/

theorem State.draw_next (s : State) (on : Bool) (pairs : List (Byte × Byte)) : ∃ t, s.draw on pairs = .next t := by
  rcases s.draw_cases on pairs with ⟨-, h⟩ | ⟨-, ⟨-, h⟩ | ⟨-, h⟩⟩ <;> exact ⟨_, h⟩

/-- An instruction without operand checks is its effect; the others go through one of the two shared handlers. -/
theorem exec_next (i : Instr) (s : State) : ∃ t, exec i s = .next t := by
  cases i with
  | halt | loop | setall | setnone => exact ⟨_, rfl⟩
  | set pairs | clear pairs => exact s.draw_next _ pairs
  | _ => exact s.checked_next _ _

theorem step_next (s : State) : ∃ t, step s = .next t := by
  by_cases hd : s.Dispatching
  · cases hf : s.fetchDecode with
    | ok i => rw [State.step_of_fetchDecode_ok hd hf]; exact exec_next i s
    | error e => exact ⟨_, State.step_of_fetchDecode_error hd hf⟩
  · cases hrun : s.running with
    | false => exact ⟨_, State.step_of_halted hrun⟩
    | true =>
      by_cases hrem : s.delayRemaining = 0
      · have hpc : s.memBytes ≤ s.pc.toNat := Nat.le_of_not_lt fun hlt => hd ⟨hrun, hrem, hlt⟩
        exact ⟨_, State.step_of_pc_beyond hrun hrem hpc⟩
      · exact ⟨_, State.step_of_waiting hrun hrem⟩

/-- Settles O14. -/
theorem stepAlwaysAnswersANextState : Obligations.StepAlwaysAnswersANextState :=
  ⟨step_next, exec_next⟩

/-! ## The table of the errors -/

/-- The table of R232, read by rows: may this instruction raise this error? The errors found before the handler, and the
assembler's, no instruction raises. -/
def mayRaise (i : Instr) : ErrorCode → Bool
  | .argsOutOfRange => mayLackOperands i
  | .badMemAddr => hasMemOperand i
  | .badScratchAddr => hasScratchOperand i
  | .badCoord => hasCoordOperand i
  | .none | .asmError | .pcOutOfRange | .unknownOpcode => false

/-- The table lists the instruction for the check of this operand's kind. -/
def listsOperand (i : Instr) : Operand → Bool
  | .mem _ => hasMemOperand i
  | .scr _ => hasScratchOperand i
  | .coord _ => hasCoordOperand i
  | .target _ | .value _ | .count _ => true

theorem mayRaise_of_operandError {i : Instr} {op : Operand} {size : Nat} {e : ErrorCode}
    (hop : listsOperand i op = true) (he : op.error size = some e) : mayRaise i e = true := by
  cases op with
  | mem a | scr a | coord a =>
    obtain ⟨-, he⟩ := Option.ite_none_right_eq_some.mp he
    cases he
    exact hop
  | target a | value a | count a => cases he

theorem mayRaise_of_firstError {i : Instr} {ops : List Operand} {size : Nat} {e : ErrorCode}
    (hops : ops.all (listsOperand i) = true) (he : firstError size ops = some e) : mayRaise i e = true := by
  induction ops with
  | nil => cases he
  | cons op rest ih =>
    obtain ⟨hhead, htail⟩ := Bool.and_eq_true_iff.mp hops
    rw [firstError_cons, Option.or_eq_some_iff] at he
    rcases he with hop | ⟨-, hrest⟩
    · exact mayRaise_of_operandError hhead hop
    · exact ih htail hrest

namespace State

/-! ## Precise halts -/

/-- `t` is stopped and, but for its error code, is as `s` was; with `BadCoord` events may have been sent to the display
(R235). -/
def HaltsPrecisely (s t : State) : Prop :=
  t.running = false ∧ s.SameMemory t ∧ t.scratch = s.scratch ∧ t.pc = s.pc ∧ s.SameFixed t ∧ s.SameDelays t ∧
  t.store = s.store ∧ (t.error ≠ .badCoord → s.SamePorts t)

variable {s t : State} {i : Instr}

theorem raise_haltsPrecisely (s : State) (e : ErrorCode) : s.HaltsPrecisely (s.raise e) :=
  ⟨rfl, fun _ => rfl, rfl, rfl, ⟨rfl, rfl⟩, ⟨rfl, rfl⟩, rfl, fun _ => ⟨rfl, rfl, rfl⟩⟩

/-- The events of the pairs before a bad one stand (42_display.md R152); none of them is a save. -/
theorem emitAll_raise_badCoord_haltsPrecisely (s : State) {events : List Event}
    (hevents : ∀ e ∈ events, ∀ img, e ≠ .save img) : s.HaltsPrecisely ((s.emitAll events).raise .badCoord) := by
  have hstore := s.emitAll_store events hevents
  obtain ⟨trace, display, store, heq⟩ := s.emitAll_eq events
  rw [heq] at hstore ⊢
  exact ⟨rfl, fun _ => rfl, rfl, rfl, ⟨rfl, rfl⟩, ⟨rfl, rfl⟩, hstore, fun hne => absurd rfl hne⟩

/-! ## What an instruction does to the error register -/

/-- Instruction `i` leaves the error register as it is, or halts precisely with an error the table lists it for. -/
def KeepsErrorOrHalts (i : Instr) (s t : State) : Prop :=
  t.error = s.error ∨ (s.HaltsPrecisely t ∧ mayRaise i t.error = true)

theorem KeepsErrorOrHalts.of_checked {ops : List Operand} {effect : State} (ht : s.checked ops effect = .next t)
    (hargs : mayLackOperands i = true) (hops : ops.all (listsOperand i) = true) (heffect : effect.error = s.error) :
    KeepsErrorOrHalts i s t := by
  rcases s.checked_cases ops effect with ⟨-, hc⟩ | ⟨-, ⟨e, he, hc⟩ | ⟨-, hc⟩⟩ <;> cases hc.symm.trans ht
  · exact .inr ⟨s.raise_haltsPrecisely _, hargs⟩
  · exact .inr ⟨s.raise_haltsPrecisely e, mayRaise_of_firstError hops he⟩
  · exact .inl heffect

theorem KeepsErrorOrHalts.of_draw {on : Bool} {pairs : List (Byte × Byte)} (ht : s.draw on pairs = .next t)
    (hargs : mayLackOperands i = true) (hcoord : hasCoordOperand i = true) : KeepsErrorOrHalts i s t := by
  rcases s.draw_cases on pairs with ⟨-, hc⟩ | ⟨-, ⟨-, hc⟩ | ⟨-, hc⟩⟩ <;> cases hc.symm.trans ht
  · exact .inr ⟨s.raise_haltsPrecisely _, hargs⟩
  · exact .inl (s.emitAll_error _)
  · exact .inr ⟨s.emitAll_raise_badCoord_haltsPrecisely ne_save_of_mem_pairEvents, hcoord⟩

end State

open State (KeepsErrorOrHalts)

/-- No effect writes the error register, and every check comes before the effect (40_step_cycle.md R130). -/
theorem exec_keepsErrorOrHalts {i : Instr} {s t : State} (ht : exec i s = .next t) : KeepsErrorOrHalts i s t := by
  cases i with
  | halt | loop | setnone => cases ht; exact .inl rfl
  | setall => cases ht; exact .inl (s.emitAll_error allOnEvents)
  | set pairs | clear pairs => exact KeepsErrorOrHalts.of_draw ht rfl rfl
  | jumpif addr testAddr => exact KeepsErrorOrHalts.of_checked ht rfl rfl (s.branchIf_error _ addr)
  | scratchJumpif addr x => exact KeepsErrorOrHalts.of_checked ht rfl rfl (s.branchIf_error _ addr)
  | _ => exact KeepsErrorOrHalts.of_checked ht rfl rfl rfl

/-- Settles O40, by the cases of what a step can do. -/
theorem errorsArePrecise : Obligations.ErrorsArePrecise := by
  intro s t hs ht herr
  rcases step_cases ht with ⟨-, rfl⟩ | ⟨-, -, rfl⟩ | ⟨-, -, -, rfl⟩ | ⟨-, ⟨e, -, rfl⟩ | ⟨i, -, hexec⟩⟩
  · exact absurd hs herr
  · exact absurd hs herr
  · exact s.raise_haltsPrecisely _
  · exact s.raise_haltsPrecisely e
  · rcases exec_keepsErrorOrHalts hexec with hkept | ⟨hhalt, -⟩
    · exact absurd (hkept.trans hs) herr
    · exact hhalt

/-- Settles O42: there is no error at the start, so one at the end is one the table lists the instruction for. -/
theorem onlyTheListedInstructionsRaiseEachError : Obligations.OnlyTheListedInstructionsRaiseEachError := by
  intro i s t hs ht
  rcases exec_keepsErrorOrHalts ht with hkept | ⟨-, hmay⟩
  · rw [hkept, hs]
    trivial
  · cases herr : t.error with
    | none => trivial
    | argsOutOfRange | badMemAddr | badScratchAddr | badCoord => rwa [herr] at hmay
    | asmError | pcOutOfRange | unknownOpcode => rw [herr] at hmay; cases hmay

end Sys2Proof.Machine
